-- ==== Sys2Proof/Word.lean ====
section
/-! DEFINITION. The two bit-vector types of the block: the 64-bit word of the ports (R70) and the 2-bit counter
state (R110). Every other quantity is a natural number, as R12 says. -/

namespace Sys2Proof

/-- One word of the command port or of the response's data (30_encoding.md R70). -/
abbrev Word := BitVec 64

/-- The state of a saturating counter, `{0, 1, 2, 3}` (41_counter_table.md R110, 10_state.md R37). -/
abbrev Counter := BitVec 2

end Sys2Proof
end

