-- ==== Sys2Proof/Config.lean ====
section
/-! DEFINITION. The build-time parameters of an instance (00_scope.md section 4) and the free values. -/

namespace Sys2Proof

/-- `ADDR_W` (00_scope.md R8): the width of the address operand on the command port. -/
def Config.addrW : Nat := 32

/-- `STAT_W` (00_scope.md R11): the width of the two totals on the response port. -/
def Config.statW : Nat := 64

/-- The build-time parameters of one instance (00_scope.md R7, R9, R10). They stand in `State`, no step writes
them, and a statement over every state holds for every value of them (log 4). -/
structure Params where
  /-- `MAX_BITS` (R7): the largest width a CFG command accepts. -/
  maxBits : Nat
  /-- `INIT_CTR` (R9): the construction state of every direction counter. -/
  initCtr : Counter
  /-- `INIT_CHOOSER` (R10): the construction state of every chooser counter. -/
  initChooser : Counter
  deriving DecidableEq, Repr

/-- The domain of `MAX_BITS` (00_scope.md R7); the counters' domain `0 .. 3` is their type. -/
abbrev Params.wf (p : Params) : Prop := 1 ≤ p.maxBits ∧ p.maxBits ≤ 63

/-- The spec's defaults `INIT_CTR = 1` (R9) and `INIT_CHOOSER = 1` (R10).
DESIGN CHOICE (log 4): `MAX_BITS = 32`, which R7 leaves OPEN and recommends. -/
def Params.default : Params := { maxBits := 32, initCtr := 1, initChooser := 1 }

/-- FREE VALUE (log 7): the data RD.TOTAL answers when TOTAL is `2^64` or more, which the spec does not state
(93_implementation_defined.md U6). -/
opaque Config.totalOverflow : Nat → Word

/-- FREE VALUE (log 7): the data RD.MISS answers when MISPRED is `2^64` or more, which the spec does not state
(93_implementation_defined.md U6). -/
opaque Config.mispredOverflow : Nat → Word

end Sys2Proof
end

