-- ==== Sys2Proof/Syntax.lean ====
section
/-! DEFINITION. The twelve commands of 30_encoding.md R72, one constructor per row of spec/opcode_table.json, and the
types decoding answers with. Operands are natural numbers, as 00_scope.md R12 reads every value; `WellFormed` says
which of them a command word can carry. -/

namespace Sys2Proof

/-- The command set (30_encoding.md R72). -/
inductive Instr where
  /-- CFG.GSHARE, `wa` = historyBits (R151). -/
  | cfgGshare (wa : Nat)
  /-- CFG.TOURN, `wa` = globalBits, `wb` = localHistoryBits, `wc` = pcIndexBits (R153). -/
  | cfgTourn (wa wb wc : Nat)
  /-- PREDICT (R155). -/
  | predict (addr : Nat)
  /-- UPDATE, `outcome` true = taken (R156). -/
  | update (addr : Nat) (outcome : Bool)
  /-- STEP, `outcome` true = taken (R158). -/
  | step (addr : Nat) (outcome : Bool)
  /-- FINISH (R160). -/
  | finish
  /-- RD.TOTAL (R161). -/
  | rdTotal
  /-- RD.MISS (R162). -/
  | rdMiss
  /-- RD.STATUS (R163). -/
  | rdStatus
  /-- RD.CONFIG (R164). -/
  | rdConfig
  /-- ABORT.CFG (R166). -/
  | abortCfg (info : Nat)
  /-- ABORT.REC (R166). -/
  | abortRec (info : Nat)
  deriving DecidableEq, Repr

/-- Why a word is illegal (30_encoding.md R82): case (a), or one of the cases (b), (c), (d). -/
inductive IllegalCause where
  /-- R82 (a): a reserved OP value. -/
  | reservedOp
  /-- R82 (b), (c), (d): a reserved bit is 1, or SEL is out of range. -/
  | reservedBits
  deriving DecidableEq, Repr

/-- What decoding a word answers (30_encoding.md R83): a command, or the word is illegal. -/
inductive Decoded where
  | command (i : Instr)
  | illegal (cause : IllegalCause)
  deriving DecidableEq, Repr

/-- One row of spec/opcode_table.json: a word spells the row's command when `word AND mask = pattern` (R83). -/
structure TableRow where
  mnemonic : String
  pattern : Word
  mask : Word
  deriving DecidableEq, Repr

end Sys2Proof
end

