-- ==== Sys2Proof/WellFormed.lean ====
section
/-! DEFINITION. Which operands a command word can carry (30_encoding.md R73 to R77, R81). -/

namespace Sys2Proof

/-- A width operand fits its 6-bit field (R75). -/
def widthFits (w : Nat) : Bool := decide (w < 2 ^ 6)

/-- An address operand fits the 32-bit field ADDR (R73, R74; 00_scope.md R8). -/
def addrFits (a : Nat) : Bool := decide (a < 2 ^ Config.addrW)

/-- An INFO operand fits its 4-bit field (R77). -/
def infoFits (n : Nat) : Bool := decide (n < 2 ^ 4)

/-- Every operand fits its field. -/
def Instr.wellFormed : Instr → Bool
  | .cfgGshare wa => widthFits wa
  | .cfgTourn wa wb wc => widthFits wa && widthFits wb && widthFits wc
  | .predict addr => addrFits addr
  | .update addr _ => addrFits addr
  | .step addr _ => addrFits addr
  | .finish => true
  | .rdTotal => true
  | .rdMiss => true
  | .rdStatus => true
  | .rdConfig => true
  | .abortCfg info => infoFits info
  | .abortRec info => infoFits info

end Sys2Proof
end

