-- ==== Sys2Proof/Decode.lean ====
section
/-! DEFINITION. Decoding of command words (30_encoding.md R71 to R77, R81 to R83), then the encoder, the opcode table
as rows of mask and pattern, and the host's entry `decodeTableWord`. -/

namespace Sys2Proof

/-- `v[hi:lo]` of 00_scope.md R13: `(v / 2^lo) mod 2^(hi-lo+1)`. -/
def slice (v hi lo : Nat) : Nat := v / 2 ^ lo % 2 ^ (hi - lo + 1)

/-- One bit as a boolean: 1 is `true` (00_scope.md R14). -/
def bitAt (v i : Nat) : Bool := slice v i i == 1

/-- A boolean as a bit: `true` is 1 (00_scope.md R14). -/
def boolBit (b : Bool) : Nat := if b then 1 else 0

/-- The command `i` if all reserved bits of its format are 0, else R82 (b). -/
def ifReservedZero (reservedZero : Bool) (i : Instr) : Decoded :=
  if reservedZero then .command i else .illegal .reservedBits

/-- Format C1 (R75): bits 59..6 reserved, WA = CW[5:0]. -/
def decodeCfgGshare (cw : Nat) : Decoded :=
  ifReservedZero (slice cw 59 6 == 0) (.cfgGshare (slice cw 5 0))

/-- Format C3 (R75): bits 59..22, 15..14 and 7..6 reserved, WC = CW[21:16], WB = CW[13:8], WA = CW[5:0]. -/
def decodeCfgTourn (cw : Nat) : Decoded :=
  ifReservedZero (slice cw 59 22 == 0 && slice cw 15 14 == 0 && slice cw 7 6 == 0)
    (.cfgTourn (slice cw 5 0) (slice cw 13 8) (slice cw 21 16))

/-- Format A (R73): bits 59..32 reserved, ADDR = CW[31:0]. -/
def decodePredict (cw : Nat) : Decoded :=
  ifReservedZero (slice cw 59 32 == 0) (.predict (slice cw 31 0))

/-- Format B, OP 0x5 (R74): bits 59..33 reserved, OUTCOME = CW[32], ADDR = CW[31:0]. -/
def decodeUpdate (cw : Nat) : Decoded :=
  ifReservedZero (slice cw 59 33 == 0) (.update (slice cw 31 0) (bitAt cw 32))

/-- Format B, OP 0x6 (R74). -/
def decodeStep (cw : Nat) : Decoded :=
  ifReservedZero (slice cw 59 33 == 0) (.step (slice cw 31 0) (bitAt cw 32))

/-- Format N (R76): every bit below OP is reserved. -/
def decodeFinish (cw : Nat) : Decoded :=
  ifReservedZero (slice cw 59 0 == 0) .finish

/-- Format S, OP 0x8 (R77): bits 59..4 reserved, SEL = CW[3:0] in 0 .. 3 (R82 (c)). -/
def decodeRead (cw : Nat) : Decoded :=
  if slice cw 3 0 = 0 then ifReservedZero (slice cw 59 4 == 0) .rdTotal
  else if slice cw 3 0 = 1 then ifReservedZero (slice cw 59 4 == 0) .rdMiss
  else if slice cw 3 0 = 2 then ifReservedZero (slice cw 59 4 == 0) .rdStatus
  else if slice cw 3 0 = 3 then ifReservedZero (slice cw 59 4 == 0) .rdConfig
  else .illegal .reservedBits

/-- Format S, OP 0xA (R77): bits 59..8 reserved, INFO = CW[7:4], SEL = CW[3:0] in 1, 2 (R82 (d)). -/
def decodeAbort (cw : Nat) : Decoded :=
  if slice cw 3 0 = 1 then ifReservedZero (slice cw 59 8 == 0) (.abortCfg (slice cw 7 4))
  else if slice cw 3 0 = 2 then ifReservedZero (slice cw 59 8 == 0) (.abortRec (slice cw 7 4))
  else .illegal .reservedBits

/-- Decoding (R83): the opcode `CW[63:60]` selects the format; every other OP value is reserved, R82 (a). -/
def decodeBits (cw : Nat) : Decoded :=
  let op := slice cw 63 60
  if op = 0x1 then decodeCfgGshare cw
  else if op = 0x2 then decodeCfgTourn cw
  else if op = 0x4 then decodePredict cw
  else if op = 0x5 then decodeUpdate cw
  else if op = 0x6 then decodeStep cw
  else if op = 0x7 then decodeFinish cw
  else if op = 0x8 then decodeRead cw
  else if op = 0xA then decodeAbort cw
  else .illegal .reservedOp

/-- Decoding is total on every 64-bit word and needs no state (R83). -/
def decode (cw : Word) : Decoded := decodeBits cw.toNat

/-- The opcode `CW[63:60]` of a command (R72). -/
def Instr.opcode : Instr → Nat
  | .cfgGshare _ => 0x1
  | .cfgTourn _ _ _ => 0x2
  | .predict _ => 0x4
  | .update _ _ => 0x5
  | .step _ _ => 0x6
  | .finish => 0x7
  | .rdTotal => 0x8
  | .rdMiss => 0x8
  | .rdStatus => 0x8
  | .rdConfig => 0x8
  | .abortCfg _ => 0xA
  | .abortRec _ => 0xA

/-- The bits below the opcode (R73 to R77), every field at its bit position and every reserved bit 0. -/
def Instr.operandBits : Instr → Nat
  | .cfgGshare wa => wa
  | .cfgTourn wa wb wc => wc * 2 ^ 16 + wb * 2 ^ 8 + wa
  | .predict addr => addr
  | .update addr outcome => boolBit outcome * 2 ^ 32 + addr
  | .step addr outcome => boolBit outcome * 2 ^ 32 + addr
  | .finish => 0
  | .rdTotal => 0
  | .rdMiss => 1
  | .rdStatus => 2
  | .rdConfig => 3
  | .abortCfg info => info * 2 ^ 4 + 1
  | .abortRec info => info * 2 ^ 4 + 2

/-- The command word of a well-formed command (R71 to R77). -/
def encode (i : Instr) : Word := BitVec.ofNat 64 (i.opcode * 2 ^ 60 + i.operandBits)

/-- The mnemonic of a command in spec/opcode_table.json. -/
def Instr.mnemonic : Instr → String
  | .cfgGshare _ => "CFG.GSHARE"
  | .cfgTourn _ _ _ => "CFG.TOURN"
  | .predict _ => "PREDICT"
  | .update _ _ => "UPDATE"
  | .step _ _ => "STEP"
  | .finish => "FINISH"
  | .rdTotal => "RD.TOTAL"
  | .rdMiss => "RD.MISS"
  | .rdStatus => "RD.STATUS"
  | .rdConfig => "RD.CONFIG"
  | .abortCfg _ => "ABORT.CFG"
  | .abortRec _ => "ABORT.REC"

/-- The rows of spec/opcode_table.json, pattern and mask as the table writes them (R83). -/
def opcodeTable : List TableRow :=
  [ ⟨"CFG.GSHARE", 0x1000000000000000, 0xFFFFFFFFFFFFFFC0⟩,
    ⟨"CFG.TOURN", 0x2000000000000000, 0xFFFFFFFFFFC0C0C0⟩,
    ⟨"PREDICT", 0x4000000000000000, 0xFFFFFFFF00000000⟩,
    ⟨"UPDATE", 0x5000000000000000, 0xFFFFFFFE00000000⟩,
    ⟨"STEP", 0x6000000000000000, 0xFFFFFFFE00000000⟩,
    ⟨"FINISH", 0x7000000000000000, 0xFFFFFFFFFFFFFFFF⟩,
    ⟨"RD.TOTAL", 0x8000000000000000, 0xFFFFFFFFFFFFFFFF⟩,
    ⟨"RD.MISS", 0x8000000000000001, 0xFFFFFFFFFFFFFFFF⟩,
    ⟨"RD.STATUS", 0x8000000000000002, 0xFFFFFFFFFFFFFFFF⟩,
    ⟨"RD.CONFIG", 0x8000000000000003, 0xFFFFFFFFFFFFFFFF⟩,
    ⟨"ABORT.CFG", 0xA000000000000001, 0xFFFFFFFFFFFFFF0F⟩,
    ⟨"ABORT.REC", 0xA000000000000002, 0xFFFFFFFFFFFFFF0F⟩ ]

/-- A word spells a row's command (R83). -/
def TableRow.covers (row : TableRow) (w : Word) : Bool := w &&& row.mask == row.pattern

/-- The command word whose low `nbits` bits are those of `w`, every bit above them 0 (log 13). -/
def tableWord (nbits w : Nat) : Word := BitVec.ofNat 64 (w % 2 ^ nbits)

/-- The command the decoder reads from a table word; `none` where the word is illegal. -/
def decodeTableWord (nbits w : Nat) : Option Instr :=
  match decode (tableWord nbits w) with
  | .command i => some i
  | .illegal _ => none

end Sys2Proof
end

