-- ==== Sys2Proof/Machine/State.lean ====
section
/-! DEFINITION. The state of one block instance (10_state.md), as plain data, its value at hardware reset, and the
reasons a step can stop. -/

namespace Sys2Proof.Machine

/-- One of the block's memories (20_memory.md R50): a counter table or the local history bank. `fill` is the value
construction wrote to every cell (R40); `cells` lists the cells that hold something else, indices strictly rising
(log 6: equal contents are equal data). An unlisted cell reads as `fill`. -/
structure Memory (α : Type) where
  fill : α
  cells : List (Nat × α)
  deriving DecidableEq, Repr

/-- The gshare variant (42_gshare.md R125). -/
structure Gshare where
  /-- `h`: the history width and the index width. -/
  historyBits : Nat
  /-- GHR (R21). -/
  ghr : Nat
  /-- PHT, `2^h` counters (R33). -/
  pht : Memory Counter
  deriving DecidableEq, Repr

/-- The tournament variant (43_tournament.md R135). -/
structure Tournament where
  /-- `g`. -/
  globalBits : Nat
  /-- `l`. -/
  localHistoryBits : Nat
  /-- `p`. -/
  pcIndexBits : Nat
  /-- TGHR (R22). -/
  tghr : Nat
  /-- GPT, `2^g` counters (R34). -/
  gpt : Memory Counter
  /-- CPT, `2^g` counters (R36). -/
  cpt : Memory Counter
  /-- The LHR bank, `2^p` registers of `l` bits (R31). -/
  lhr : Memory Nat
  /-- LPT, `2^l` counters (R35). -/
  lpt : Memory Counter
  deriving DecidableEq, Repr

/-- The predictor variant the instance owns (R20): none, or exactly one. MODE, W0, W1 and W2 are read off it. -/
inductive Variant where
  | unconfigured
  | gshare (g : Gshare)
  | tourn (t : Tournament)
  deriving DecidableEq, Repr

/-- PHASE (R27). -/
inductive Phase where
  | uninitialized
  | ready
  | finished
  | faulted
  deriving DecidableEq, Repr

/-- The kinds ERR names (R26; 60_exceptions.md R175). -/
inductive ErrKind where
  | noError
  | configuration
  | malformedRecord
  | illegalCommand
  | phase
  deriving DecidableEq, Repr

/-- One response (30_encoding.md R70, R78). -/
structure Response where
  status : BitVec 4
  data : Word
  deriving DecidableEq, Repr

/-- What the host can do to the block: present a command word (30_encoding.md R70) or assert hardware reset
(70_reset_and_hazards.md R200). -/
inductive HostInput where
  | command (cw : Word)
  | hardwareReset
  deriving DecidableEq, Repr

/-- The state of one instance (10_state.md R20), with the build-time parameters (log 4), what the host presents
next (log 1) and what stands on the response port (log 3). -/
structure State where
  /-- The build-time parameters; written by no step. -/
  params : Params
  /-- PHASE (R27). -/
  phase : Phase
  /-- The constructed variant, and with it MODE, W0, W1 and W2 (R20, R28). -/
  variant : Variant
  /-- ERR (R29). -/
  err : ErrKind
  /-- ERRINFO (R29, R176). -/
  errInfo : BitVec 4
  /-- TOTAL (R30). -/
  total : Nat
  /-- MISPRED (R30). -/
  mispred : Nat
  /-- The inputs the host presents, the next one first. -/
  inputs : List HostInput
  /-- The last response given since hardware reset. -/
  response : Option Response
  deriving DecidableEq, Repr

/-- Why the model stops with a fault. -/
inductive Fault where
  /-- Raised by PREDICT, UPDATE and STEP in phase Ready with no variant constructed, a state R28 and R157 say never
  occurs (log 8). Safe: the model stops where the spec gives nothing, and no run reaches it. -/
  | noVariant
  deriving DecidableEq, Repr

/-- Why the model refuses an instruction. -/
inductive Refusal where
  /-- Raised by `exec` alone, for an instruction that has no meaning yet; no arm of this model does so. Safe: the model
  stops. -/
  | notModelled (mnemonic : String)
  deriving DecidableEq, Repr

/-- The machine right after hardware reset (R41, 70_reset_and_hazards.md R200). DESIGN CHOICE: the parameters (log 4),
no input presented (log 1), nothing on the response port (log 3). -/
def State.reset : State :=
  { params := Params.default
    phase := .uninitialized
    variant := .unconfigured
    err := .noError
    errInfo := 0
    total := 0
    mispred := 0
    inputs := []
    response := none }

end Sys2Proof.Machine
end

