-- ==== Sys2Proof/Machine/Flags.lean ====
section
/-! DEFINITION. The block has no flag register (10_state.md R25). What stands here in its place is how the control
and status registers read: their codes (R26), MODE and W0 to W2 read off the variant (R20), and the data layouts of
30_encoding.md R78 and R80. -/

namespace Sys2Proof.Machine

/-- The code of PHASE (R26). -/
def Phase.code : Phase → Nat
  | .uninitialized => 0
  | .ready => 1
  | .finished => 2
  | .faulted => 3

/-- The code of ERR (R26); a raised error's code is also its response status (30_encoding.md R79). -/
def ErrKind.code : ErrKind → Nat
  | .noError => 0
  | .configuration => 1
  | .malformedRecord => 2
  | .illegalCommand => 3
  | .phase => 4

/-- Status 0 OK (R79). -/
def statusOk : BitVec 4 := 0

/-- Status 5 Faulted (R79), a response code only. -/
def statusFaulted : BitVec 4 := 5

/-- The response status of a raised error: its ERR code (R79). -/
def ErrKind.status (e : ErrKind) : BitVec 4 := BitVec.ofNat 4 e.code

/-- MODE, 2 bits (R26). -/
def Variant.mode : Variant → BitVec 2
  | .unconfigured => 0
  | .gshare _ => 1
  | .tourn _ => 2

/-- W0, 6 bits: `h` under gshare, `g` under tournament, else 0 (R26). -/
def Variant.w0 : Variant → BitVec 6
  | .unconfigured => 0
  | .gshare g => BitVec.ofNat 6 g.historyBits
  | .tourn t => BitVec.ofNat 6 t.globalBits

/-- W1, 6 bits: `l` under tournament, else 0 (R26). -/
def Variant.w1 : Variant → BitVec 6
  | .unconfigured => 0
  | .gshare _ => 0
  | .tourn t => BitVec.ofNat 6 t.localHistoryBits

/-- W2, 6 bits: `p` under tournament, else 0 (R26). -/
def Variant.w2 : Variant → BitVec 6
  | .unconfigured => 0
  | .gshare _ => 0
  | .tourn t => BitVec.ofNat 6 t.pcIndexBits

/-- The STATUS layout (R80): PHASE in 1..0, MODE in 3..2, ERR in 7..4, ERRINFO in 11..8. -/
def State.statusData (s : State) : Word :=
  BitVec.ofNat 64
    (s.phase.code + 2 ^ 2 * s.variant.mode.toNat + 2 ^ 4 * s.err.code + 2 ^ 8 * s.errInfo.toNat)

/-- The CONFIG layout (R80, 44_driver.md R164): W0 in 5..0, W1 in 13..8, W2 in 21..16. -/
def State.configData (s : State) : Word :=
  BitVec.ofNat 64
    (s.variant.w0.toNat + s.variant.w1.toNat * 2 ^ 8 + s.variant.w2.toNat * 2 ^ 16)

/-- A prediction as response data: `data[0]` = 1 for taken (R78). -/
def predictionData (taken : Bool) : Word := BitVec.ofNat 64 (boolBit taken)

/-- A total as response data. At `2^64` or more the spec states no value: the free value `overflow` (log 7). -/
def totalData (overflow : Nat → Word) (n : Nat) : Word :=
  if n < 2 ^ Config.statW then BitVec.ofNat 64 n else overflow n

/-- A misprediction: the prediction differs from the outcome (44_driver.md R158). -/
def mispredicted (prediction outcome : Bool) : Bool := prediction != outcome

end Sys2Proof.Machine
end

