-- ==== Sys2Proof/Machine/Operands.lean ====
section
/-! DEFINITION. The effective-index computations, the block's "addressing modes" (44_driver.md R170), and the history
register operations they are made of (40_bitregister.md). An address is any natural number (00_scope.md R8). -/

namespace Sys2Proof.Machine

/-- SHIFTIN (40_bitregister.md R101) on a register of width `w`: `((value << 1) | bit) mod 2^w`. -/
def shiftIn (w value : Nat) (bit : Bool) : Nat := ((value <<< 1) ||| boolBit bit) % 2 ^ w

/-- ASINDEX (R102): the value itself. -/
def asIndex (value : Nat) : Nat := value

/-- The index TBL.LOOKUP selects in a table of `2^bits` counters: `index mod size` (41_counter_table.md R114). -/
def lookupIndex (bits index : Nat) : Nat := index % 2 ^ bits

/-- GSHARE.INDEX (42_gshare.md R126): `(address XOR GHR) mod 2^h`. -/
def Gshare.index (g : Gshare) (address : Nat) : Nat :=
  (address ^^^ asIndex g.ghr) % 2 ^ g.historyBits

/-- The global index (43_tournament.md R137): TGHR, with no address term (90_conflicts.md C3). -/
def Tournament.gIndex (t : Tournament) : Nat := asIndex t.tghr

/-- BANK.GET's slot (43_tournament.md R136): `address mod 2^p`. -/
def Tournament.slot (t : Tournament) (address : Nat) : Nat := address % 2 ^ t.pcIndexBits

end Sys2Proof.Machine
end

