-- ==== Sys2Proof/Machine/Ops.lean ====
section
/-! DEFINITION. The shared operations: reading and writing a memory of the block, the counter and table operations
(41_counter_table.md), responding, raising an error (60_exceptions.md R181), the frame every command is performed in
(44_driver.md R150), and hardware reset (70_reset_and_hazards.md R200). -/

namespace Sys2Proof.Machine

/-- What a command answers. -/
abbrev Result := Host.Outcome State Fault Refusal

/-! ### Memories -/

/-- The value listed for index `i`, or `fill`. -/
def cellsRead {α : Type} (fill : α) : List (Nat × α) → Nat → α
  | [], _ => fill
  | (j, v) :: rest, i => if i = j then v else cellsRead fill rest i

/-- Put `(i, v)` in front, unless `v` is what an unlisted cell reads as. -/
def cellsCons {α : Type} [DecidableEq α] (fill : α) (i : Nat) (v : α) (rest : List (Nat × α)) : List (Nat × α) :=
  if v = fill then rest else (i, v) :: rest

/-- List `v` for index `i`, in place, indices rising and no entry equal to `fill`. -/
def cellsWrite {α : Type} [DecidableEq α] (fill : α) (i : Nat) (v : α) : List (Nat × α) → List (Nat × α)
  | [] => cellsCons fill i v []
  | (j, u) :: rest =>
    if i < j then cellsCons fill i v ((j, u) :: rest)
    else if i = j then cellsCons fill i v rest
    else (j, u) :: cellsWrite fill i v rest

/-- The canonical form of a listing whose indices are at least `low`: rising, no entry equal to `fill`. -/
def cellsWf {α : Type} [DecidableEq α] (fill : α) : Nat → List (Nat × α) → Bool
  | _, [] => true
  | low, (j, v) :: rest => decide (low ≤ j) && decide (v ≠ fill) && cellsWf fill (j + 1) rest

/-- `TblRead` (00_scope.md R15): one cell. -/
def Memory.read {α : Type} (m : Memory α) (i : Nat) : α := cellsRead m.fill m.cells i

/-- `TblWrite` (00_scope.md R15): one cell, the listing kept canonical. -/
def Memory.write {α : Type} [DecidableEq α] (m : Memory α) (i : Nat) (v : α) : Memory α :=
  { m with cells := cellsWrite m.fill i v m.cells }

/-- TBL.INIT (41_counter_table.md R116): every cell holds `init`. -/
def Memory.filled {α : Type} (init : α) : Memory α := { fill := init, cells := [] }

/-- The canonical form (log 6). -/
def Memory.wf {α : Type} [DecidableEq α] (m : Memory α) : Bool := cellsWf m.fill 0 m.cells

/-- Every listed index lies in `0 .. size - 1` (20_memory.md R50). -/
def Memory.within {α : Type} (size : Nat) (m : Memory α) : Bool := m.cells.all fun c => decide (c.1 < size)

/-! ### Counters and tables -/

/-- `sat_inc` (00_scope.md R15): `min(s + 1, 3)`. -/
def satInc (s : Counter) : Counter := BitVec.ofNat 2 (min (s.toNat + 1) 3)

/-- `sat_dec` (00_scope.md R15): `s - 1` if `s > 0`, else `0`. -/
def satDec (s : Counter) : Counter := BitVec.ofNat 2 (if 0 < s.toNat then s.toNat - 1 else 0)

/-- CTR.PREDICT (41_counter_table.md R111): `state >= 2`. -/
def ctrPredict (s : Counter) : Bool := decide (2 ≤ s.toNat)

/-- CTR.ADJUST (41_counter_table.md R112). -/
def ctrAdjust (s : Counter) (taken : Bool) : Counter := if taken then satInc s else satDec s

/-- CTR.PREDICT of the counter TBL.LOOKUP selects in a table of `2^bits` counters (R111, R114). -/
def tblPredict (bits : Nat) (m : Memory Counter) (index : Nat) : Bool :=
  ctrPredict (m.read (lookupIndex bits index))

/-- CTR.ADJUST of the counter TBL.LOOKUP selects in a table of `2^bits` counters (R112, R114). -/
def tblAdjust (bits : Nat) (m : Memory Counter) (index : Nat) (taken : Bool) : Memory Counter :=
  m.write (lookupIndex bits index) (ctrAdjust (m.read (lookupIndex bits index)) taken)

/-! ### Responding and raising an error -/

/-- `respond(status, data)` (30_encoding.md R78). -/
def State.respond (s : State) (status : BitVec 4) (data : Word) : State :=
  { s with response := some { status := status, data := data } }

/-- `respond(0, data)`: the command was performed. -/
def State.respondOk (s : State) (data : Word) : State := s.respond statusOk data

/-- The error record of `raise E(info)` (60_exceptions.md R181): ERR, ERRINFO, and PHASE to Faulted. -/
def State.recordError (s : State) (e : ErrKind) (info : BitVec 4) : State :=
  { s with err := e, errInfo := info, phase := .faulted }

/-- TAKING AN EXCEPTION: `raise E(info)` (60_exceptions.md R181). The error is recorded, and the response is its code
with the STATUS layout read after these writes; nothing else changes. There is no return from it (R183). -/
def State.raise (s : State) (e : ErrKind) (info : BitVec 4) : State :=
  (s.recordError e info).respond e.status (s.recordError e info).statusData

/-- A command that arrives in phase 3 (60_exceptions.md R183): status 5 with the STATUS layout, nothing changes. -/
def State.respondFaulted (s : State) : State := s.respond statusFaulted s.statusData

/-- ERRINFO of a PhaseError: the value of PHASE when the command arrived (60_exceptions.md R176). -/
def Phase.info (p : Phase) : BitVec 4 := BitVec.ofNat 4 p.code

/-- ERRINFO of an IllegalCommand (30_encoding.md R82). -/
def illegalInfo : IllegalCause → BitVec 4
  | .reservedOp => 1
  | .reservedBits => 2

/-- ERRINFO 3 of a ConfigurationError: a width is 0 (60_exceptions.md R176). -/
def zeroWidthInfo : BitVec 4 := 3

/-- ERRINFO 4 of a ConfigurationError: a width is above MAX_BITS (60_exceptions.md R176). -/
def tooWideInfo : BitVec 4 := 4

/-! ### The frame of a command -/

/-- Legal in Uninitialized only: CFG.* (44_driver.md R150). -/
def inUninitialized : Phase → Bool
  | .uninitialized => true
  | .ready => false
  | .finished => false
  | .faulted => false

/-- Legal in Ready only: PREDICT, UPDATE, STEP, FINISH (44_driver.md R150). -/
def inReady : Phase → Bool
  | .uninitialized => false
  | .ready => true
  | .finished => false
  | .faulted => false

/-- Legal in every phase but Faulted: RD.*, ABORT.* (44_driver.md R150). -/
def unlessFaulted : Phase → Bool
  | .uninitialized => true
  | .ready => true
  | .finished => true
  | .faulted => false

/-- The frame of 44_driver.md R150 for a decoded command: status 5 in phase 3, then the phase check, then the
command's own rule `perform`. -/
def framed (legalIn : Phase → Bool) (perform : State → Result) (s : State) : Result :=
  if s.phase = .faulted then .next s.respondFaulted
  else if legalIn s.phase then perform s
  else .next (s.raise .phase s.phase.info)

/-- The frame for an illegal word (44_driver.md R150 steps 1 and 2). -/
def performIllegal (cause : IllegalCause) (s : State) : State :=
  if s.phase = .faulted then s.respondFaulted else s.raise .illegalCommand (illegalInfo cause)

/-! ### Writes of the commands -/

/-- Construction (44_driver.md R151, R153): the variant with MODE and W0 to W2, and PHASE to Ready. -/
def State.construct (s : State) (v : Variant) : State := { s with variant := v, phase := .ready }

/-- PHASE to Finished (44_driver.md R160). -/
def State.finish (s : State) : State := { s with phase := .finished }

/-- The predictor state of the constructed variant. -/
def State.withVariant (s : State) (v : Variant) : State := { s with variant := v }

/-- TOTAL + 1, and MISPRED + 1 on a misprediction (44_driver.md R158). -/
def State.count (s : State) (miss : Bool) : State :=
  { s with total := s.total + 1, mispred := s.mispred + boolBit miss }

/-! ### The host's side of the port -/

/-- The host's further inputs. -/
def State.withInputs (s : State) (inputs : List HostInput) : State := { s with inputs := inputs }

/-- Hardware reset (70_reset_and_hazards.md R200, 10_state.md R41): every register at its reset value, no variant.
The build-time parameters and the host's further inputs are not state of the block and stay (log 9). -/
def State.hardwareReset (s : State) : State :=
  { State.reset with params := s.params, inputs := s.inputs }

/-- What the command port holds next. -/
inductive Fetched where
  | idle
  | command (i : Instr) (s : State)
  | illegal (cause : IllegalCause) (s : State)
  | hardwareReset (s : State)
  deriving DecidableEq, Repr

/-- Take the host's next input: commands are performed one at a time, in the order presented (20_memory.md R58), each
word decoded before anything else (44_driver.md R150). The state given on has that input consumed. -/
def fetch (s : State) : Fetched :=
  match s.inputs with
  | [] => .idle
  | .hardwareReset :: rest => .hardwareReset (s.withInputs rest)
  | .command cw :: rest =>
    match decode cw with
    | .command i => .command i (s.withInputs rest)
    | .illegal cause => .illegal cause (s.withInputs rest)

/-- The host presents the word `cw` before everything else it has to present. -/
def State.present (s : State) (cw : Word) : State := s.withInputs (.command cw :: s.inputs)

end Sys2Proof.Machine
end

