-- ==== Sys2Proof/Machine/Predictors.lean ====
section
/-! DEFINITION. The two predictors: gshare (42_gshare.md) and tournament (43_tournament.md), and the dispatch on the
variant (44_driver.md R157). -/

namespace Sys2Proof.Machine

/-! ### gshare -/

/-- Construction of gshare (44_driver.md R151; 10_state.md R40): GHR 0, every PHT counter `INIT_CTR`. -/
def Gshare.construct (params : Params) (h : Nat) : Gshare :=
  { historyBits := h, ghr := 0, pht := Memory.filled params.initCtr }

/-- GSHARE.PREDICT (42_gshare.md R129). -/
def Gshare.predict (g : Gshare) (address : Nat) : Bool :=
  tblPredict g.historyBits g.pht (g.index address)

/-- GSHARE.UPDATE (42_gshare.md R128): the index is of the old GHR; the counter is adjusted, then the outcome shifted
in. -/
def Gshare.update (g : Gshare) (address : Nat) (actual : Bool) : Gshare :=
  { g with
    pht := tblAdjust g.historyBits g.pht (g.index address) actual
    ghr := shiftIn g.historyBits g.ghr actual }

/-! ### tournament -/

/-- Construction of tournament (44_driver.md R153; 10_state.md R40). -/
def Tournament.construct (params : Params) (g l p : Nat) : Tournament :=
  { globalBits := g
    localHistoryBits := l
    pcIndexBits := p
    tghr := 0
    gpt := Memory.filled params.initCtr
    cpt := Memory.filled params.initChooser
    lhr := Memory.filled 0
    lpt := Memory.filled params.initCtr }

/-- BANK.GET (43_tournament.md R136): the local history register of the address's slot. -/
def Tournament.localReg (t : Tournament) (address : Nat) : Nat := t.lhr.read (t.slot address)

/-- The local index (43_tournament.md R138). -/
def Tournament.lIndex (t : Tournament) (address : Nat) : Nat := asIndex (t.localReg address)

/-- The global vote (43_tournament.md R140). -/
def Tournament.globalVote (t : Tournament) : Bool := tblPredict t.globalBits t.gpt t.gIndex

/-- The local vote (43_tournament.md R140). -/
def Tournament.localVote (t : Tournament) (address : Nat) : Bool :=
  tblPredict t.localHistoryBits t.lpt (t.lIndex address)

/-- Whether the chooser trusts the global vote (43_tournament.md R140): its counter is 2 or 3. -/
def Tournament.trustGlobal (t : Tournament) : Bool := tblPredict t.globalBits t.cpt t.gIndex

/-- TOURN.PREDICT (43_tournament.md R141): the trusted vote of R140. -/
def Tournament.predict (t : Tournament) (address : Nat) : Bool :=
  if t.trustGlobal then t.globalVote else t.localVote address

/-- Chooser training (43_tournament.md R142): only when the votes disagree, toward the one that matched. -/
def Tournament.trainChooser (t : Tournament) (address : Nat) (actual : Bool) : Memory Counter :=
  if t.globalVote != t.localVote address then
    tblAdjust t.globalBits t.cpt t.gIndex (t.globalVote == actual)
  else t.cpt

/-- TOURN.UPDATE (43_tournament.md R144): every index and vote is of the state before the update. -/
def Tournament.update (t : Tournament) (address : Nat) (actual : Bool) : Tournament :=
  { t with
    gpt := tblAdjust t.globalBits t.gpt t.gIndex actual
    lpt := tblAdjust t.localHistoryBits t.lpt (t.lIndex address) actual
    cpt := t.trainChooser address actual
    tghr := shiftIn t.globalBits t.tghr actual
    lhr := t.lhr.write (t.slot address) (shiftIn t.localHistoryBits (t.localReg address) actual) }

/-! ### Dispatch on the variant -/

/-- `Predict(a)` (44_driver.md R157); no variant, no prediction. -/
def Variant.predict : Variant → Nat → Option Bool
  | .unconfigured, _ => none
  | .gshare g, address => some (g.predict address)
  | .tourn t, address => some (t.predict address)

/-- `Update(a, o)` (44_driver.md R157). -/
def Variant.update : Variant → Nat → Bool → Variant
  | .unconfigured, _, _ => .unconfigured
  | .gshare g, address, actual => .gshare (g.update address actual)
  | .tourn t, address, actual => .tourn (t.update address actual)

end Sys2Proof.Machine
end

