-- ==== Sys2Proof/Machine/Configure.lean ====
section
/-! DEFINITION. The configuration commands CFG.GSHARE and CFG.TOURN (44_driver.md R151 to R154). -/

namespace Sys2Proof.Machine

/-- The check of a CFG command's widths (44_driver.md R152, R154; 60_exceptions.md R182): any zero first, cause 3, then
any width above MAX_BITS, cause 4. -/
def widthsError (maxBits : Nat) (widths : List Nat) : Option (BitVec 4) :=
  if widths.any fun w => w == 0 then some zeroWidthInfo
  else if widths.any fun w => decide (maxBits < w) then some tooWideInfo
  else none

/-- A CFG command's own rule: refuse bad widths with nothing constructed, else construct `v` and answer `(0, 0)`. -/
def configure (widths : List Nat) (v : Variant) (s : State) : Result :=
  match widthsError s.params.maxBits widths with
  | some cause => .next (s.raise .configuration cause)
  | none => .next ((s.construct v).respondOk 0)

/-- CFG.GSHARE (44_driver.md R151, R152). -/
def execCfgGshare (wa : Nat) (s : State) : Result :=
  framed inUninitialized (configure [wa] (.gshare (Gshare.construct s.params wa))) s

/-- CFG.TOURN (44_driver.md R153, R154). -/
def execCfgTourn (wa wb wc : Nat) (s : State) : Result :=
  framed inUninitialized (configure [wa, wb, wc] (.tourn (Tournament.construct s.params wa wb wc))) s

end Sys2Proof.Machine
end

