-- ==== Sys2Proof/Machine/Control.lean ====
section
/-! DEFINITION. FINISH, the register reads RD.* and the reports ABORT.* (44_driver.md R160 to R166). -/

namespace Sys2Proof.Machine

/-- A register read: `respond(0, data)` and no state change (44_driver.md R161 to R164). -/
def answer (data : State → Word) (s : State) : Result := .next (s.respondOk (data s))

/-- An error the front end reports (44_driver.md R166): raised with ERRINFO = INFO. -/
def report (e : ErrKind) (info : Nat) (s : State) : Result := .next (s.raise e (BitVec.ofNat 4 info))

/-- FINISH's own rule (44_driver.md R160): PHASE to Finished, `respond(0, 0)`. -/
def endRun (s : State) : Result := .next (s.finish.respondOk 0)

/-- FINISH (44_driver.md R160). -/
def execFinish (s : State) : Result :=
  framed inReady endRun s

/-- RD.TOTAL (44_driver.md R161). -/
def execRdTotal (s : State) : Result :=
  framed unlessFaulted (answer fun s => totalData Config.totalOverflow s.total) s

/-- RD.MISS (44_driver.md R162). -/
def execRdMiss (s : State) : Result :=
  framed unlessFaulted (answer fun s => totalData Config.mispredOverflow s.mispred) s

/-- RD.STATUS (44_driver.md R163). -/
def execRdStatus (s : State) : Result :=
  framed unlessFaulted (answer State.statusData) s

/-- RD.CONFIG (44_driver.md R164). -/
def execRdConfig (s : State) : Result :=
  framed unlessFaulted (answer State.configData) s

/-- ABORT.CFG (44_driver.md R166). -/
def execAbortCfg (info : Nat) (s : State) : Result :=
  framed unlessFaulted (report .configuration info) s

/-- ABORT.REC (44_driver.md R166). -/
def execAbortRec (info : Nat) (s : State) : Result :=
  framed unlessFaulted (report .malformedRecord info) s

end Sys2Proof.Machine
end

