-- ==== Sys2Proof/Machine/Predict.lean ====
section
/-! DEFINITION. The prediction and training commands PREDICT, UPDATE and STEP (44_driver.md R155 to R158). -/

namespace Sys2Proof.Machine

/-- Perform with the variant's prediction for `address`. With no variant in phase Ready, which R157 says never occurs,
the model stops with the fault `noVariant` (log 8). -/
def withPrediction (address : Nat) (perform : Bool → State → State) (s : State) : Result :=
  match s.variant.predict address with
  | some prediction => .next (perform prediction s)
  | none => .fault .noVariant

/-- PREDICT's own rule (44_driver.md R155): the response, and no state element changed. -/
def answerPrediction (prediction : Bool) (s : State) : State := s.respondOk (predictionData prediction)

/-- UPDATE's own rule (44_driver.md R156). -/
def train (address : Nat) (outcome : Bool) (s : State) : State :=
  (s.withVariant (s.variant.update address outcome)).respondOk 0

/-- STEP's own rule (44_driver.md R158): count, compare, update, and answer the prediction, all from the state before
the command. -/
def performRecord (address : Nat) (outcome : Bool) (prediction : Bool) (s : State) : State :=
  ((s.count (mispredicted prediction outcome)).withVariant (s.variant.update address outcome)).respondOk
    (predictionData prediction)

/-- PREDICT (44_driver.md R155). -/
def execPredict (addr : Nat) (s : State) : Result :=
  framed inReady (withPrediction addr answerPrediction) s

/-- UPDATE (44_driver.md R156). -/
def execUpdate (addr : Nat) (outcome : Bool) (s : State) : Result :=
  framed inReady (withPrediction addr fun _ => train addr outcome) s

/-- STEP (44_driver.md R158). -/
def execStep (addr : Nat) (outcome : Bool) (s : State) : Result :=
  framed inReady (withPrediction addr (performRecord addr outcome)) s

end Sys2Proof.Machine
end

