-- ==== Sys2Proof/Machine/Dispatch.lean ====
section
/-! DEFINITION. One arm per command. -/

namespace Sys2Proof.Machine

def exec (i : Instr) (s : State) : Host.Outcome State Fault Refusal :=
  match i with
  | .cfgGshare wa => Sys2Proof.Machine.execCfgGshare wa s
  | .cfgTourn wa wb wc => Sys2Proof.Machine.execCfgTourn wa wb wc s
  | .predict addr => Sys2Proof.Machine.execPredict addr s
  | .update addr outcome => Sys2Proof.Machine.execUpdate addr outcome s
  | .step addr outcome => Sys2Proof.Machine.execStep addr outcome s
  | .finish => Sys2Proof.Machine.execFinish s
  | .rdTotal => Sys2Proof.Machine.execRdTotal s
  | .rdMiss => Sys2Proof.Machine.execRdMiss s
  | .rdStatus => Sys2Proof.Machine.execRdStatus s
  | .rdConfig => Sys2Proof.Machine.execRdConfig s
  | .abortCfg info => Sys2Proof.Machine.execAbortCfg info s
  | .abortRec info => Sys2Proof.Machine.execAbortRec info s

end Sys2Proof.Machine
end

