-- ==== Sys2Proof/Machine/Step.lean ====
section
/-! DEFINITION. One step of the machine: the host's next input is taken and performed to completion
(20_memory.md R57, R58). With nothing presented nothing happens (60_exceptions.md R185, log 2). -/

namespace Sys2Proof.Machine

/-- One step. -/
def step (s : State) : Host.Outcome State Fault Refusal :=
  match fetch s with
  | .idle => .next s
  | .command i s' => exec i s'
  | .illegal cause s' => .next (performIllegal cause s')
  | .hardwareReset s' => .next s'.hardwareReset

/-- The host presents the table word `w` of `nbits` bits as its next command. -/
def State.withFetchWord (s : State) (nbits w : Nat) : State := s.present (tableWord nbits w)

end Sys2Proof.Machine
end

