-- ==== Sys2Proof/Machine/FrontEnd.lean ====
section
/-! DEFINITION. The host's side of a run: the text front end (30_encoding.md R88 to R92), which turns the configuration
string and the trace lines into commands, and the misprediction rate the host computes (44_driver.md R165). No step
calls what stands here (log 12). -/

namespace Sys2Proof.Machine.FrontEnd

/-! ### Lexical pieces -/

/-- Split at every `sep` (R88, R90). -/
def pieces (sep : Char) : List Char → List (List Char)
  | [] => [[]]
  | c :: cs =>
    if c = sep then [] :: pieces sep cs
    else
      match pieces sep cs with
      | [] => [[c]]
      | p :: ps => (c :: p) :: ps

/-- An ASCII decimal digit's value (R88). -/
def decimalDigit (c : Char) : Option Nat :=
  if 48 ≤ c.toNat ∧ c.toNat ≤ 57 then some (c.toNat - 48) else none

/-- A hexadecimal digit's value: `0`-`9`, `a`-`f`, `A`-`F` (R90). -/
def hexDigit (c : Char) : Option Nat :=
  if 48 ≤ c.toNat ∧ c.toNat ≤ 57 then some (c.toNat - 48)
  else if 97 ≤ c.toNat ∧ c.toNat ≤ 102 then some (c.toNat - 87)
  else if 65 ≤ c.toNat ∧ c.toNat ≤ 70 then some (c.toNat - 55)
  else none

/-- Read digits, most significant first, after a part of value `acc`. -/
def numeralFrom (base : Nat) (digit : Char → Option Nat) (acc : Nat) : List Char → Option Nat
  | [] => some acc
  | c :: cs =>
    match digit c with
    | some d => numeralFrom base digit (acc * base + d) cs
    | none => none

/-- A numeral is one or more digits and nothing else (R88, R90). -/
def numeral (base : Nat) (digit : Char → Option Nat) : List Char → Option Nat
  | [] => none
  | c :: cs => numeralFrom base digit 0 (c :: cs)

/-- A width piece of the configuration string (R88); leading zeros are ignored by the decimal reading. -/
def decimal (text : List Char) : Option Nat := numeral 10 decimalDigit text

/-- Every width piece's value, if each is a decimal integer. -/
def decimals : List (List Char) → Option (List Nat)
  | [] => some []
  | t :: ts =>
    match decimal t, decimals ts with
    | some v, some vs => some (v :: vs)
    | _, _ => none

/-! ### The configuration string -/

/-- The number of widths a predictor name takes (R89 (2)); `none` for an unknown name (R89 (1)). -/
def widthCount (name : List Char) : Option Nat :=
  if name = "gshare".toList then some 1
  else if name = "tournament".toList then some 3
  else none

/-- The string's name and width pieces (R88). -/
def configParts (text : List Char) : List Char × List (List Char) :=
  match pieces ':' text with
  | [] => ([], [])
  | name :: widths => (name, widths)

/-- A width piece that fails check (3) of R89: not a decimal integer, or of value 0. -/
def notPositive (width : List Char) : Bool :=
  match decimal width with
  | none => true
  | some v => v == 0

/-- A width piece that fails check (4) of R89: its value exceeds `limit`. -/
def exceeds (limit : Nat) (width : List Char) : Bool :=
  match decimal width with
  | none => false
  | some v => decide (limit < v)

/-- The checks of R89 in their order: the cause of the string's ConfigurationError, or `none` for a valid string. -/
def configCause (maxBits : Nat) (text : List Char) : Option Nat :=
  match widthCount (configParts text).1 with
  | none => some 1
  | some n =>
    if (configParts text).2.length ≠ n then some 2
    else if (configParts text).2.any notPositive then some 3
    else if (configParts text).2.any (exceeds maxBits) then some 4
    else none

/-- The CFG command of a string whose name and count are right. -/
def cfgCommand : List Nat → Instr
  | [h] => .cfgGshare h
  | [g, l, p] => .cfgTourn g l p
  | _ => .abortCfg 2

/-- The command of R92 step 1: a CFG command where every width fits its 6-bit field, else ABORT.CFG with the cause that
R89's order gives for the whole string. -/
def configCommand (text : List Char) : Instr :=
  match widthCount (configParts text).1 with
  | none => .abortCfg 1
  | some n =>
    if (configParts text).2.length ≠ n then .abortCfg 2
    else
      match decimals (configParts text).2 with
      | none => .abortCfg 3
      | some widths =>
        if widths.all widthFits then cfgCommand widths
        else if widths.any fun w => w == 0 then .abortCfg 3
        else .abortCfg 4

/-! ### The trace -/

/-- What a trace line is: a record, or malformed with the INFO of R92 step 2. -/
inductive Line where
  | record (addr : Nat) (outcome : Bool)
  | malformed (info : Nat)
  deriving DecidableEq, Repr

/-- INFO 1 of ABORT.REC: a syntax error (R92). -/
def syntaxInfo : Nat := 1

/-- INFO 2 of ABORT.REC: the address does not fit `ADDR_W` (R92). -/
def addressInfo : Nat := 2

/-- A space or a tab (R90). -/
def isBlank (c : Char) : Bool := c == ' ' || c == '\t'

/-- A hexadecimal digit (R90). -/
def isHex (c : Char) : Bool := (hexDigit c).isSome

/-- The address field without its optional prefix `0x` or `0X` (R90). -/
def withoutPrefix : List Char → List Char
  | '0' :: 'x' :: rest => rest
  | '0' :: 'X' :: rest => rest
  | text => text

/-- Nothing but optional blanks, then at most one carriage return (R90, log 10). -/
def isLineEnd (text : List Char) : Bool :=
  text.dropWhile isBlank == [] || text.dropWhile isBlank == ['\r']

/-- The outcome field and the end of the line, after at least one blank (R90). -/
def outcomeField (text : List Char) : Option Bool :=
  match text with
  | [] => none
  | c :: rest =>
    if isBlank c then
      match rest.dropWhile isBlank with
      | '0' :: tail => if isLineEnd tail then some false else none
      | '1' :: tail => if isLineEnd tail then some true else none
      | _ => none
    else none

/-- A trace line (R90, R91): a line of no record is a syntax error first, an address that does not fit second
(log 11). -/
def parseLine (line : List Char) : Line :=
  match numeral 16 hexDigit ((withoutPrefix line).takeWhile isHex),
      outcomeField ((withoutPrefix line).dropWhile isHex) with
  | some addr, some outcome => if addrFits addr then .record addr outcome else .malformed addressInfo
  | _, _ => .malformed syntaxInfo

/-- The lines of the trace text, without the empty piece after a final line feed (R90); an empty text has none (log
17). -/
def traceLines (text : List Char) : List (List Char) :=
  if (pieces '\n' text).getLast? = some [] then (pieces '\n' text).dropLast else pieces '\n' text

/-- The commands of R92 steps 2 and 3: STEP per line; at the first malformed line ABORT.REC and no more; at end of
input FINISH, RD.TOTAL, RD.MISS. -/
def traceCommands : List (List Char) → List Instr
  | [] => [.finish, .rdTotal, .rdMiss]
  | line :: rest =>
    match parseLine line with
    | .record addr outcome => .step addr outcome :: traceCommands rest
    | .malformed info => [.abortRec info]

/-! ### The run -/

/-- Present commands after whatever the host already presents. -/
def presentAll (commands : List Instr) (s : State) : State :=
  s.withInputs (s.inputs ++ commands.map fun i => HostInput.command (encode i))

/-- R92 step 1: the front end opens a run with the configuration string's command. -/
def openRun (config : List Char) (s : State) : State := presentAll [configCommand config] s

/-- R92 steps 2 and 3, issued on the configuration command's response: nothing unless its status is 0. -/
def afterConfig (trace : List Char) (s : State) : List Instr :=
  match s.response with
  | none => []
  | some r => if r.status = statusOk then traceCommands (traceLines trace) else []

/-- The front end goes on once the configuration command has responded. -/
def continueRun (trace : List Char) (s : State) : State := presentAll (afterConfig trace s) s

/-- The misprediction rate the host computes (44_driver.md R165): no value when TOTAL is 0. -/
def missRate (total mispred : Nat) : Option Rat :=
  if total = 0 then none else some ((mispred : Rat) / (total : Rat))

end Sys2Proof.Machine.FrontEnd
end

