-- ==== Sys2Proof/Safety.lean ====
section
/-! DEFINITION. What counts as a legal state and a safe run, in the terms the statements use. -/

namespace Sys2Proof.Machine

/-- The next state of an answer, if it is one. -/
def nextOf : Result → Option State
  | .next s => some s
  | .fault _ => none
  | .refused _ => none

/-- A run is complete (44_driver.md R167, 70_reset_and_hazards.md R212). -/
def State.complete (s : State) : Prop := s.phase = .finished

/-- A run has failed (60_exceptions.md R183). -/
def State.failed (s : State) : Prop := s.phase = .faulted

/-- The storage of a variant in bits (10_state.md R38). -/
def Variant.storageBits : Variant → Nat
  | .unconfigured => 0
  | .gshare g => g.historyBits + 2 * 2 ^ g.historyBits
  | .tourn t =>
    t.globalBits + 2 * 2 ^ t.globalBits + 2 * 2 ^ t.globalBits + t.localHistoryBits * 2 ^ t.pcIndexBits +
      2 * 2 ^ t.localHistoryBits

/-- A memory of `size` cells: canonical, with no cell outside (20_memory.md R50; log 6). -/
structure MemoryOk {α : Type} [DecidableEq α] (size : Nat) (m : Memory α) : Prop where
  canonical : m.wf = true
  inside : m.within size = true

/-- gshare's storage is of its width (10_state.md R21, R33; 40_bitregister.md R103). -/
structure GshareOk (g : Gshare) : Prop where
  ghr_lt : g.ghr < 2 ^ g.historyBits
  pht_ok : MemoryOk (2 ^ g.historyBits) g.pht

/-- tournament's storage is of its widths (10_state.md R22, R31, R34 to R36; 40_bitregister.md R103). -/
structure TournamentOk (t : Tournament) : Prop where
  tghr_lt : t.tghr < 2 ^ t.globalBits
  gpt_ok : MemoryOk (2 ^ t.globalBits) t.gpt
  cpt_ok : MemoryOk (2 ^ t.globalBits) t.cpt
  lpt_ok : MemoryOk (2 ^ t.localHistoryBits) t.lpt
  lhr_ok : MemoryOk (2 ^ t.pcIndexBits) t.lhr
  lhr_lt : ∀ slot, t.lhr.read slot < 2 ^ t.localHistoryBits

/-- A configured width (10_state.md R28). -/
abbrev WidthOk (maxBits w : Nat) : Prop := 1 ≤ w ∧ w ≤ maxBits

/-- A constructed variant has legal widths and storage of those widths. -/
def VariantOk (maxBits : Nat) : Variant → Prop
  | .unconfigured => True
  | .gshare g => WidthOk maxBits g.historyBits ∧ GshareOk g
  | .tourn t =>
    WidthOk maxBits t.globalBits ∧ WidthOk maxBits t.localHistoryBits ∧ WidthOk maxBits t.pcIndexBits ∧
      TournamentOk t

/-- The form of a trace line without the bound on its address (30_encoding.md R90): an optional prefix 0x or 0X, one or
more hexadecimal digits of value `addr`, one or more blanks, the outcome digit, blanks and at most one carriage return.
Where the carriage return may stand is the model's (log 10). -/
def RecordForm (line : List Char) (addr : Nat) (outcome : Bool) : Prop :=
  ∃ lead digits blanks trail cr : List Char,
    line = lead ++ digits ++ blanks ++ (if outcome then '1' else '0') :: trail ++ cr ∧
    (lead = [] ∨ lead = ['0', 'x'] ∨ lead = ['0', 'X']) ∧
    FrontEnd.numeral 16 FrontEnd.hexDigit digits = some addr ∧
    blanks ≠ [] ∧ (∀ b ∈ blanks, b = ' ' ∨ b = '\t') ∧
    (∀ b ∈ trail, b = ' ' ∨ b = '\t') ∧ (cr = [] ∨ cr = ['\r'])

/-- The invariant of the block's registers and storage. -/
structure Inv (s : State) : Prop where
  /-- 00_scope.md R7. -/
  params_wf : s.params.wf
  /-- 10_state.md R29: ERR = 0 if and only if PHASE ≠ 3. -/
  err_iff : s.err = .noError ↔ s.phase ≠ .faulted
  /-- 44_driver.md R163: in phases 0 to 2 ERRINFO reads 0. -/
  info_zero : s.err = .noError → s.errInfo = 0
  /-- 10_state.md R30. -/
  mispred_le : s.mispred ≤ s.total
  /-- 10_state.md R28: MODE = 0 before a CFG command has succeeded. -/
  not_yet : s.phase = .uninitialized → s.variant = .unconfigured
  /-- 44_driver.md R157: in phase 1 MODE is 1 or 2, and FINISH keeps it. -/
  configured : s.phase = .ready ∨ s.phase = .finished → s.variant ≠ .unconfigured
  /-- 60_exceptions.md R177: without a variant no record has been performed. -/
  no_records : s.variant = .unconfigured → s.total = 0
  /-- 10_state.md R28, R37; 40_bitregister.md R103; 20_memory.md R50. -/
  variant_ok : VariantOk s.params.maxBits s.variant

/-- The invariant of the response port. That a non-zero status stands in phase 3, is at most 5 and comes with the
STATUS layout is 30_encoding.md R78, R79 and 60_exceptions.md R183. That the port holds nothing where no response has
been given, at State.reset and after a hardware reset, is the model's choice (log 3, log 9). -/
structure PortInv (s : State) : Prop where
  ok_unless_faulted : s.phase ≠ .faulted → ∀ r, s.response = some r → r.status = statusOk
  faulted_status : s.phase = .faulted →
    ∃ r, s.response = some r ∧ 1 ≤ r.status.toNat ∧ r.status.toNat ≤ 5 ∧ r.data = s.statusData

end Sys2Proof.Machine
end

