-- ==== Sys2Proof/Certificates/Slice0/Obligations.lean ====
section
/-! DEFINITION. The statements for the provers. `s.inputs = .command cw :: rest` says that the host presents the word
`cw` next; a next state written as a record update of `s` leaves every field it does not name unchanged, and the
state holds nothing else (10_state.md R39). -/

open Sys2Proof Sys2Proof.Machine

/-! ### Encoding -/

/-- Decoding the word of a well-formed command gives that command back (30_encoding.md R71 to R77). -/
def Obligations.DecodeOfEncode : Prop :=
  ∀ i : Instr, i.wellFormed = true → decode (encode i) = .command i

/-- A word that decodes to a command is that command's one word, and its operands fit their fields
(30_encoding.md R71, R81). -/
def Obligations.EncodeOfDecode : Prop :=
  ∀ (w : Word) (i : Instr), decode w = .command i → i.wellFormed = true ∧ encode i = w

/-- A word decodes to a row's command exactly when `w AND mask = match` of that row of spec/opcode_table.json, and it
matches at most one row (30_encoding.md R83). -/
def Obligations.DecodeAgreesWithTable : Prop :=
  ∀ w : Word,
    (∀ i, decode w = .command i →
      ∃ row ∈ opcodeTable, row.mnemonic = i.mnemonic ∧ w &&& row.mask = row.pattern) ∧
    (∀ row ∈ opcodeTable, w &&& row.mask = row.pattern →
      ∃ i, decode w = .command i ∧ i.mnemonic = row.mnemonic) ∧
    (∀ row ∈ opcodeTable, ∀ row' ∈ opcodeTable,
      w &&& row.mask = row.pattern → w &&& row'.mask = row'.pattern → row = row')

/-- The example words of 30_encoding.md R73 to R77 decode to the commands they stand for. -/
def Obligations.SpecWordsDecode : Prop :=
  decode 0x4000000000000004 = .command (.predict 0x4) ∧
  decode 0x6000000000000004 = .command (.step 0x4 false) ∧
  decode 0x6000000100000004 = .command (.step 0x4 true) ∧
  decode 0x500000010000001C = .command (.update 0x1C true) ∧
  decode 0x100000000000000D = .command (.cfgGshare 13) ∧
  decode 0x20000000000A0A09 = .command (.cfgTourn 9 10 10) ∧
  decode 0x2000000000010202 = .command (.cfgTourn 2 2 1) ∧
  decode 0x7000000000000000 = .command .finish ∧
  decode 0x8000000000000000 = .command .rdTotal ∧
  decode 0x8000000000000001 = .command .rdMiss ∧
  decode 0x8000000000000002 = .command .rdStatus ∧
  decode 0x8000000000000003 = .command .rdConfig ∧
  decode 0xA000000000000011 = .command (.abortCfg 1) ∧
  decode 0xA000000000000002 = .command (.abortRec 0)

/-- 30_encoding.md R82: which words are illegal, in which case, and that such a word raises IllegalCommand with
ERRINFO 1 in case (a) and 2 in cases (b), (c), (d), in every phase but Faulted; every other word is a command. -/
def Obligations.IllegalWordsRaise : Prop :=
  ∀ w : Word,
    let op := w.toNat / 2 ^ 60
    let sel := w.toNat % 2 ^ 4
    let caseA := op = 0x0 ∨ op = 0x3 ∨ op = 0x9 ∨ 0xB ≤ op
    let caseBCD :=
      (op = 0x1 ∧ w.toNat / 2 ^ 6 % 2 ^ 54 ≠ 0) ∨
      (op = 0x2 ∧ (w.toNat / 2 ^ 22 % 2 ^ 38 ≠ 0 ∨ w.toNat / 2 ^ 14 % 2 ^ 2 ≠ 0 ∨ w.toNat / 2 ^ 6 % 2 ^ 2 ≠ 0)) ∨
      (op = 0x4 ∧ w.toNat / 2 ^ 32 % 2 ^ 28 ≠ 0) ∨
      ((op = 0x5 ∨ op = 0x6) ∧ w.toNat / 2 ^ 33 % 2 ^ 27 ≠ 0) ∨
      (op = 0x7 ∧ w.toNat % 2 ^ 60 ≠ 0) ∨
      (op = 0x8 ∧ (w.toNat / 2 ^ 4 % 2 ^ 56 ≠ 0 ∨ 3 < sel)) ∨
      (op = 0xA ∧ (w.toNat / 2 ^ 8 % 2 ^ 52 ≠ 0 ∨ (sel ≠ 1 ∧ sel ≠ 2)))
    (¬ caseA → ¬ caseBCD → ∃ i, decode w = .command i) ∧
    (∀ (s : State) (rest : List HostInput), s.inputs = .command w :: rest → s.phase ≠ .faulted →
      (caseA → ∃ t, step s = .next t ∧ t.err = .illegalCommand ∧ t.errInfo = 1) ∧
      (caseBCD → ∃ t, step s = .next t ∧ t.err = .illegalCommand ∧ t.errInfo = 2))

/-! ### One step -/

/-- A step performs the command the next word decodes to, on the state with that word consumed
(20_memory.md section 5, 44_driver.md section 1). -/
def Obligations.StepRunsDecodedCommand : Prop :=
  ∀ (s : State) (w : Word) (rest : List HostInput) (i : Instr),
    s.inputs = .command w :: rest → decode w = .command i →
      step s = exec i { s with inputs := rest }

/-- With nothing presented a step changes nothing (60_exceptions.md R185). The idle step itself is the model's
(log 2). -/
def Obligations.NothingPresentedNothingHappens : Prop :=
  ∀ s : State, s.inputs = [] → step s = .next s

/-- An illegal word raises IllegalCommand and has no other effect (60_exceptions.md R178, R181). -/
def Obligations.IllegalWordErrorEntry : Prop :=
  ∀ (s : State) (w : Word) (rest : List HostInput) (cause : IllegalCause),
    s.inputs = .command w :: rest → decode w = .illegal cause → s.phase ≠ .faulted →
      let info : Nat := match cause with | .reservedOp => 1 | .reservedBits => 2
      step s = .next { s with
        inputs := rest
        phase := .faulted
        err := .illegalCommand
        errInfo := BitVec.ofNat 4 info
        response := some ⟨3, BitVec.ofNat 64 (3 + 4 * s.variant.mode.toNat + 16 * 3 + 256 * info)⟩ }

/-- Hardware reset puts every register at its reset value and leaves no variant (10_state.md R41). Clearing the
response port and keeping the host's further inputs is the model's (log 9). -/
def Obligations.HardwareResetStep : Prop :=
  ∀ (s : State) (rest : List HostInput), s.inputs = .hardwareReset :: rest →
    ∃ t, step s = .next t ∧ t.phase = .uninitialized ∧ t.variant = .unconfigured ∧
      t.variant.mode = 0 ∧ t.variant.w0 = 0 ∧ t.variant.w1 = 0 ∧ t.variant.w2 = 0 ∧
      t.err = .noError ∧ t.errInfo = 0 ∧ t.total = 0 ∧ t.mispred = 0 ∧
      t.params = s.params ∧ t.inputs = rest ∧ t.response = none

/-- The registers right after hardware reset (10_state.md R41). -/
def Obligations.ResetRegisterValues : Prop :=
  State.reset.phase = .uninitialized ∧ State.reset.variant = .unconfigured ∧
  State.reset.variant.mode = 0 ∧ State.reset.variant.w0 = 0 ∧ State.reset.variant.w1 = 0 ∧
  State.reset.variant.w2 = 0 ∧ State.reset.err = .noError ∧ State.reset.errInfo = 0 ∧
  State.reset.total = 0 ∧ State.reset.mispred = 0

/-! ### Configuration -/

/-- CFG.GSHARE with `1 <= WA <= MAX_BITS` constructs gshare (44_driver.md R151): GHR 0, every PHT counter INIT_CTR,
MODE 1, W0 = h, W1 = W2 = 0, PHASE 1, response (0, 0), nothing else written. -/
def Obligations.CfgGshareConstructs : Prop :=
  ∀ (s : State) (wa : Nat), s.phase = .uninitialized → 1 ≤ wa → wa ≤ s.params.maxBits →
    ∃ g : Gshare,
      exec (.cfgGshare wa) s =
        .next { s with variant := .gshare g, phase := .ready, response := some ⟨0, 0⟩ } ∧
      g.historyBits = wa ∧ g.ghr = 0 ∧ (∀ i, g.pht.read i = s.params.initCtr) ∧
      (Variant.gshare g).mode = 1 ∧ (Variant.gshare g).w0 = BitVec.ofNat 6 wa ∧
      (Variant.gshare g).w1 = 0 ∧ (Variant.gshare g).w2 = 0

/-- CFG.GSHARE with a zero width raises ConfigurationError cause 3, else with a width above MAX_BITS cause 4
(44_driver.md R152); only PHASE, ERR, ERRINFO and the response are written. -/
def Obligations.CfgGshareRejects : Prop :=
  ∀ (s : State) (wa : Nat), s.phase = .uninitialized → (wa = 0 ∨ s.params.maxBits < wa) →
    let info : Nat := if wa = 0 then 3 else 4
    exec (.cfgGshare wa) s = .next { s with
      phase := .faulted
      err := .configuration
      errInfo := BitVec.ofNat 4 info
      response := some ⟨1, BitVec.ofNat 64 (3 + 4 * s.variant.mode.toNat + 16 * 1 + 256 * info)⟩ }

/-- CFG.TOURN with every width in `1 .. MAX_BITS` constructs tournament (44_driver.md R153). -/
def Obligations.CfgTournConstructs : Prop :=
  ∀ (s : State) (wa wb wc : Nat), s.phase = .uninitialized →
    1 ≤ wa → wa ≤ s.params.maxBits → 1 ≤ wb → wb ≤ s.params.maxBits → 1 ≤ wc → wc ≤ s.params.maxBits →
    ∃ t : Tournament,
      exec (.cfgTourn wa wb wc) s =
        .next { s with variant := .tourn t, phase := .ready, response := some ⟨0, 0⟩ } ∧
      t.globalBits = wa ∧ t.localHistoryBits = wb ∧ t.pcIndexBits = wc ∧ t.tghr = 0 ∧
      (∀ i, t.gpt.read i = s.params.initCtr) ∧ (∀ i, t.cpt.read i = s.params.initChooser) ∧
      (∀ i, t.lhr.read i = 0) ∧ (∀ i, t.lpt.read i = s.params.initCtr) ∧
      (Variant.tourn t).mode = 2 ∧ (Variant.tourn t).w0 = BitVec.ofNat 6 wa ∧
      (Variant.tourn t).w1 = BitVec.ofNat 6 wb ∧ (Variant.tourn t).w2 = BitVec.ofNat 6 wc

/-- CFG.TOURN: any zero width raises ConfigurationError cause 3, else any width above MAX_BITS cause 4
(44_driver.md R154); nothing is constructed. -/
def Obligations.CfgTournRejects : Prop :=
  ∀ (s : State) (wa wb wc : Nat), s.phase = .uninitialized →
    (wa = 0 ∨ wb = 0 ∨ wc = 0 ∨ s.params.maxBits < wa ∨ s.params.maxBits < wb ∨ s.params.maxBits < wc) →
    let info : Nat := if wa = 0 ∨ wb = 0 ∨ wc = 0 then 3 else 4
    exec (.cfgTourn wa wb wc) s = .next { s with
      phase := .faulted
      err := .configuration
      errInfo := BitVec.ofNat 4 info
      response := some ⟨1, BitVec.ofNat 64 (3 + 4 * s.variant.mode.toNat + 16 * 1 + 256 * info)⟩ }

/-- CFG.TOURN of tournament:9:10:10 from Uninitialized gives tables of 512, 512 and 1024 entries and 1024 slots, and
RD.CONFIG then answers 0x0A0A09 (43_tournament.md R148). -/
def Obligations.NineTenTenSizes : Prop :=
  ∀ s : State, s.phase = .uninitialized → 10 ≤ s.params.maxBits →
    ∃ (t : Tournament) (u : State), exec (.cfgTourn 9 10 10) s = .next u ∧ u.variant = .tourn t ∧
      2 ^ t.globalBits = 512 ∧ 2 ^ t.localHistoryBits = 1024 ∧ 2 ^ t.pcIndexBits = 1024 ∧
      (Variant.tourn t).storageBits = 14345 ∧
      exec .rdConfig u = .next { u with response := some ⟨0, 0x0A0A09⟩ }

/-! ### Prediction -/

/-- The counter cell (41_counter_table.md R111, R112): the vote is `state >= 2`; adjusting saturates at 3 and 0. -/
def Obligations.CounterVotesAndSaturates : Prop :=
  ∀ (c : Counter),
    (ctrPredict c = true ↔ 2 ≤ c.toNat) ∧
    (ctrAdjust c true).toNat = min (c.toNat + 1) 3 ∧
    (ctrAdjust c false).toNat = if 0 < c.toNat then c.toNat - 1 else 0

/-- Adjusting a counter of a canonical table changes that counter alone, and TBL.LOOKUP selects `index mod size`
(41_counter_table.md R114, R118). -/
def Obligations.TableAdjustChangesOneCounter : Prop :=
  ∀ (bits index j : Nat) (m : Memory Counter) (taken : Bool), m.wf = true →
    tblPredict bits m index = ctrPredict (m.read (index % 2 ^ bits)) ∧
    (tblAdjust bits m index taken).read j =
      if j = index % 2 ^ bits then ctrAdjust (m.read j) taken else m.read j

/-- PREDICT under gshare (42_gshare.md R129): the vote of `PHT[(address XOR GHR) mod 2^h]`, and no state element
changed. -/
def Obligations.PredictGshare : Prop :=
  ∀ (s : State) (g : Gshare) (addr : Nat), s.phase = .ready → s.variant = .gshare g →
    let counter := (g.pht.read ((addr ^^^ g.ghr) % 2 ^ g.historyBits)).toNat
    exec (.predict addr) s = .next { s with response := some ⟨0, if 2 ≤ counter then 1 else 0⟩ }

/-- PREDICT under tournament (43_tournament.md R140, R141): the chooser counter at TGHR selects the global vote at
TGHR or the local vote at `LHR[address mod 2^p]`, and no state element is changed. The registers' bounds are premises,
the invariant of `StepKeepsInvariant`. -/
def Obligations.PredictTournament : Prop :=
  ∀ (s : State) (t : Tournament) (addr : Nat), s.phase = .ready → s.variant = .tourn t →
    t.tghr < 2 ^ t.globalBits → t.lhr.read (addr % 2 ^ t.pcIndexBits) < 2 ^ t.localHistoryBits →
    let globalVote := 2 ≤ (t.gpt.read t.tghr).toNat
    let localVote := 2 ≤ (t.lpt.read (t.lhr.read (addr % 2 ^ t.pcIndexBits))).toNat
    let trustGlobal := 2 ≤ (t.cpt.read t.tghr).toNat
    exec (.predict addr) s = .next { s with
      response := some ⟨0, if (trustGlobal ∧ globalVote) ∨ (¬ trustGlobal ∧ localVote) then 1 else 0⟩ }

/-- UPDATE under gshare (42_gshare.md R128, 44_driver.md R156): the counter selected by the old GHR moves one toward
the outcome, every other counter stays, the outcome is shifted into GHR; response (0, 0) and nothing else written. -/
def Obligations.UpdateGshare : Prop :=
  ∀ (s : State) (g : Gshare) (addr : Nat) (outcome : Bool), s.phase = .ready → s.variant = .gshare g →
    g.pht.wf = true →
    let index := (addr ^^^ g.ghr) % 2 ^ g.historyBits
    ∃ g' : Gshare,
      exec (.update addr outcome) s = .next { s with variant := .gshare g', response := some ⟨0, 0⟩ } ∧
      g'.historyBits = g.historyBits ∧
      g'.ghr = (2 * g.ghr + outcome.toNat) % 2 ^ g.historyBits ∧
      (g'.pht.read index).toNat =
        (if outcome then min ((g.pht.read index).toNat + 1) 3 else (g.pht.read index).toNat - 1) ∧
      ∀ j, j ≠ index → g'.pht.read j = g.pht.read j

/-- UPDATE under tournament (43_tournament.md R144, R142): with every index and vote of the state before the command,
the global and the local counter move toward the outcome, the chooser counter moves only when the votes differ, toward
the vote that was right, TGHR and the one LHR register shift the outcome in, and every other cell stays. -/
def Obligations.UpdateTournament : Prop :=
  ∀ (s : State) (t : Tournament) (addr : Nat) (outcome : Bool), s.phase = .ready → s.variant = .tourn t →
    TournamentOk t →
    let slot := addr % 2 ^ t.pcIndexBits
    let lIndex := t.lhr.read slot
    let globalVote := decide (2 ≤ (t.gpt.read t.tghr).toNat)
    let localVote := decide (2 ≤ (t.lpt.read lIndex).toNat)
    let moved (c : Counter) (up : Bool) : Nat := if up then min (c.toNat + 1) 3 else c.toNat - 1
    ∃ t' : Tournament,
      exec (.update addr outcome) s = .next { s with variant := .tourn t', response := some ⟨0, 0⟩ } ∧
      t'.globalBits = t.globalBits ∧ t'.localHistoryBits = t.localHistoryBits ∧
      t'.pcIndexBits = t.pcIndexBits ∧
      (t'.gpt.read t.tghr).toNat = moved (t.gpt.read t.tghr) outcome ∧
      (∀ j, j ≠ t.tghr → t'.gpt.read j = t.gpt.read j) ∧
      (t'.lpt.read lIndex).toNat = moved (t.lpt.read lIndex) outcome ∧
      (∀ j, j ≠ lIndex → t'.lpt.read j = t.lpt.read j) ∧
      (globalVote = localVote → t'.cpt = t.cpt) ∧
      (globalVote ≠ localVote →
        (t'.cpt.read t.tghr).toNat = moved (t.cpt.read t.tghr) (globalVote == outcome)) ∧
      (∀ j, j ≠ t.tghr → t'.cpt.read j = t.cpt.read j) ∧
      t'.tghr = (2 * t.tghr + outcome.toNat) % 2 ^ t.globalBits ∧
      t'.lhr.read slot = (2 * lIndex + outcome.toNat) % 2 ^ t.localHistoryBits ∧
      (∀ j, j ≠ slot → t'.lhr.read j = t.lhr.read j)

/-- STEP (44_driver.md R158): predict, count, compare and update, prediction and update both of the state before the
command; the response is the prediction. -/
def Obligations.StepPerformsRecord : Prop :=
  ∀ (s : State) (addr : Nat) (outcome pred : Bool), s.phase = .ready → s.variant.predict addr = some pred →
    exec (.step addr outcome) s = .next { s with
      variant := s.variant.update addr outcome
      total := s.total + 1
      mispred := if pred = outcome then s.mispred else s.mispred + 1
      response := some ⟨0, if pred then 1 else 0⟩ }

/-- STEP against PREDICT followed by UPDATE (44_driver.md section 3): same prediction, same predictor state; only the
totals differ, which STEP advances and the pair does not. -/
def Obligations.StepIsPredictThenUpdate : Prop :=
  ∀ (s : State) (addr : Nat) (outcome : Bool), s.phase = .ready → s.variant ≠ .unconfigured →
    ∃ p u t : State,
      exec (.predict addr) s = .next p ∧ exec (.update addr outcome) p = .next u ∧
      exec (.step addr outcome) s = .next t ∧
      t.response = p.response ∧ t.variant = u.variant ∧ p.variant = s.variant ∧
      u.total = s.total ∧ u.mispred = s.mispred ∧ t.total = s.total + 1 ∧
      t.mispred = s.mispred +
        (if p.response = some ⟨0, if outcome then 1 else 0⟩ then 0 else 1) ∧
      t = { u with total := t.total, mispred := t.mispred, response := p.response }

/-- Predictions do not train (70_reset_and_hazards.md section 3): after any sequence of PREDICT, UPDATE and STEP
commands the predictor state is that of its UPDATE and STEP commands alone. -/
def Obligations.PredictorStateIgnoresPredicts : Prop :=
  ∀ (s : State) (commands : List Instr), s.phase = .ready → s.variant ≠ .unconfigured →
    (∀ i ∈ commands, (∃ a, i = .predict a) ∨ (∃ a o, i = .update a o) ∨ (∃ a o, i = .step a o)) →
    let run (cs : List Instr) : Option State := cs.foldlM (fun u i => nextOf (exec i u)) s
    let trains (i : Instr) : Bool := match i with | .update _ _ => true | .step _ _ => true | _ => false
    ∃ t t', run commands = some t ∧ run (commands.filter trains) = some t' ∧ t.variant = t'.variant

/-! ### Control, reads and reports -/

/-- FINISH (44_driver.md R160): PHASE to Finished, response (0, 0), nothing else changes. -/
def Obligations.FinishEndsRun : Prop :=
  ∀ s : State, s.phase = .ready →
    exec .finish s = .next { s with phase := .finished, response := some ⟨0, 0⟩ }

/-- RD.TOTAL and RD.MISS (44_driver.md R161, R162) answer TOTAL and MISPRED in phases 0, 1, 2. Below `2^64` the data is
the count; above, the command still responds, with a data that is the model's free value (log 7). -/
def Obligations.ReadTotals : Prop :=
  ∀ s : State, s.phase ≠ .faulted →
    (∃ d : Word, exec .rdTotal s = .next { s with response := some ⟨0, d⟩ } ∧
      (s.total < 2 ^ 64 → d.toNat = s.total)) ∧
    (∃ d : Word, exec .rdMiss s = .next { s with response := some ⟨0, d⟩ } ∧
      (s.mispred < 2 ^ 64 → d.toNat = s.mispred))

/-- RD.STATUS (44_driver.md R163, 30_encoding.md R80): PHASE, MODE, ERR and ERRINFO in the STATUS layout. -/
def Obligations.ReadStatus : Prop :=
  ∀ s : State, s.phase ≠ .faulted →
    ∃ d : Word, exec .rdStatus s = .next { s with response := some ⟨0, d⟩ } ∧
      d.toNat % 2 ^ 2 = (match s.phase with | .uninitialized => 0 | .ready => 1 | .finished => 2 | .faulted => 3) ∧
      d.toNat / 2 ^ 2 % 2 ^ 2 = (match s.variant with | .unconfigured => 0 | .gshare _ => 1 | .tourn _ => 2) ∧
      d.toNat / 2 ^ 4 % 2 ^ 4 =
        (match s.err with
          | .noError => 0 | .configuration => 1 | .malformedRecord => 2 | .illegalCommand => 3 | .phase => 4) ∧
      d.toNat / 2 ^ 8 % 2 ^ 4 = s.errInfo.toNat ∧
      d.toNat / 2 ^ 12 = 0 ∧
      (Inv s → d.toNat / 2 ^ 4 = 0)

/-- RD.CONFIG (44_driver.md R164, 30_encoding.md R80): W0, W1 and W2 in the CONFIG layout, every other bit 0. -/
def Obligations.ReadConfig : Prop :=
  ∀ s : State, s.phase ≠ .faulted →
    ∃ d : Word, exec .rdConfig s = .next { s with response := some ⟨0, d⟩ } ∧
      d.toNat = s.variant.w0.toNat + s.variant.w1.toNat * 2 ^ 8 + s.variant.w2.toNat * 2 ^ 16 ∧
      (∀ g, s.variant = .gshare g → g.historyBits < 64 → d.toNat = g.historyBits) ∧
      (∀ t, s.variant = .tourn t → t.globalBits < 64 → t.localHistoryBits < 64 → t.pcIndexBits < 64 →
        d.toNat = t.globalBits + t.localHistoryBits * 2 ^ 8 + t.pcIndexBits * 2 ^ 16) ∧
      (s.variant = .unconfigured → d = 0)

/-- ABORT.CFG and ABORT.REC (44_driver.md R166): in phases 0, 1, 2 the error is raised with ERRINFO = INFO and nothing
else changes. -/
def Obligations.AbortRecordsError : Prop :=
  ∀ (s : State) (info : Nat), s.phase ≠ .faulted → info < 2 ^ 4 →
    exec (.abortCfg info) s = .next { s with
      phase := .faulted
      err := .configuration
      errInfo := BitVec.ofNat 4 info
      response := some ⟨1, BitVec.ofNat 64 (3 + 4 * s.variant.mode.toNat + 16 * 1 + 256 * info)⟩ } ∧
    exec (.abortRec info) s = .next { s with
      phase := .faulted
      err := .malformedRecord
      errInfo := BitVec.ofNat 4 info
      response := some ⟨2, BitVec.ofNat 64 (3 + 4 * s.variant.mode.toNat + 16 * 2 + 256 * info)⟩ }

/-! ### Errors -/

/-- PhaseError (60_exceptions.md R180, 44_driver.md R150): a CFG outside phase 0, and a PREDICT, UPDATE, STEP or FINISH
outside phase 1, in a phase that is not 3, whatever its operands: ERR 4, ERRINFO the old PHASE, nothing else changes. -/
def Obligations.PhaseErrorEntry : Prop :=
  ∀ (s : State) (i : Instr), s.phase ≠ .faulted →
    (((∃ wa, i = .cfgGshare wa) ∨ (∃ wa wb wc, i = .cfgTourn wa wb wc)) ∧ s.phase ≠ .uninitialized) ∨
    (((∃ a, i = .predict a) ∨ (∃ a o, i = .update a o) ∨ (∃ a o, i = .step a o) ∨ i = .finish) ∧
      s.phase ≠ .ready) →
    let info : Nat := match s.phase with | .uninitialized => 0 | .ready => 1 | .finished => 2 | .faulted => 3
    exec i s = .next { s with
      phase := .faulted
      err := .phase
      errInfo := BitVec.ofNat 4 info
      response := some ⟨4, BitVec.ofNat 64 (3 + 4 * s.variant.mode.toNat + 16 * 4 + 256 * info)⟩ }

/-- Phase 3 is absorbing (60_exceptions.md R183): every command and every word, legal or not, answers status 5 with the
STATUS layout and changes nothing. -/
def Obligations.FaultedAnswersStatusFive : Prop :=
  ∀ s : State, s.phase = .faulted →
    let status := s.phase.code + 4 * s.variant.mode.toNat + 16 * s.err.code + 256 * s.errInfo.toNat
    (∀ i : Instr, exec i s = .next { s with response := some ⟨5, BitVec.ofNat 64 status⟩ }) ∧
    (∀ (w : Word) (rest : List HostInput), s.inputs = .command w :: rest →
      step s = .next { s with inputs := rest, response := some ⟨5, BitVec.ofNat 64 status⟩ })

/-- Errors are precise (60_exceptions.md R181): a step that moves PHASE to 3 changes PHASE, ERR, ERRINFO, the response
and the consumed input, and nothing else. -/
def Obligations.ErrorsArePrecise : Prop :=
  ∀ s t : State, step s = .next t → s.phase ≠ .faulted → t.phase = .faulted →
    ∃ r : Response, r.status.toNat = t.err.code ∧ r.data = t.statusData ∧ t.err ≠ .noError ∧
      t = { s with
        phase := .faulted, err := t.err, errInfo := t.errInfo, inputs := s.inputs.tail, response := some r }

/-- ERR and ERRINFO are sticky (10_state.md R29): from a state that meets the invariant, only a step that moves PHASE
to 3 writes them, and no step but a hardware reset writes them again; ERR is 0 exactly outside phase 3. -/
def Obligations.ErrorRecordIsSticky : Prop :=
  ∀ s t : State, Inv s → step s = .next t → s.inputs.head? ≠ some .hardwareReset →
    (t.err = .noError ↔ t.phase ≠ .faulted) ∧
    (s.phase = .faulted → t.err = s.err ∧ t.errInfo = s.errInfo) ∧
    (t.phase ≠ .faulted → t.err = s.err ∧ t.errInfo = s.errInfo)

/-! ### Whole-machine rules -/

/-- The legal phase transitions are exactly 0 to 1 by a CFG command, 1 to 2 by FINISH, and 0, 1 or 2 to 3; only hardware
reset leaves 3 or returns to 0 (10_state.md R27). -/
def Obligations.PhaseTransitions : Prop :=
  ∀ s t : State, step s = .next t → s.inputs.head? ≠ some .hardwareReset →
    t.phase = s.phase ∨
    (s.phase = .uninitialized ∧ t.phase = .ready ∧
      ∃ w i, s.inputs.head? = some (.command w) ∧ decode w = .command i ∧
        ((∃ wa, i = .cfgGshare wa) ∨ (∃ wa wb wc, i = .cfgTourn wa wb wc))) ∨
    (s.phase = .ready ∧ t.phase = .finished ∧
      ∃ w, s.inputs.head? = some (.command w) ∧ decode w = .command .finish) ∨
    (s.phase ≠ .faulted ∧ t.phase = .faulted)

/-- The configuration is immutable (10_state.md R28): once a variant is constructed, no step but a hardware reset
changes its kind or a width, and one is constructed only by the step that moves PHASE from 0 to 1. -/
def Obligations.ConfigurationIsImmutable : Prop :=
  ∀ s t : State, Inv s → step s = .next t → s.inputs.head? ≠ some .hardwareReset →
    (∀ g, s.variant = .gshare g → ∃ g', t.variant = .gshare g' ∧ g'.historyBits = g.historyBits) ∧
    (∀ u, s.variant = .tourn u → ∃ u', t.variant = .tourn u' ∧ u'.globalBits = u.globalBits ∧
      u'.localHistoryBits = u.localHistoryBits ∧ u'.pcIndexBits = u.pcIndexBits) ∧
    (s.variant ≠ .unconfigured → t.variant.mode = s.variant.mode ∧ t.variant.w0 = s.variant.w0 ∧
      t.variant.w1 = s.variant.w1 ∧ t.variant.w2 = s.variant.w2) ∧
    (s.variant = .unconfigured → t.variant ≠ .unconfigured → s.phase = .uninitialized ∧ t.phase = .ready)

/-- TOTAL and MISPRED are changed only by STEP (10_state.md R30), and by hardware reset; MISPRED stays at most TOTAL. -/
def Obligations.TotalsChangeOnlyByStep : Prop :=
  ∀ s t : State, step s = .next t → s.inputs.head? ≠ some .hardwareReset →
    ((t.total = s.total ∧ t.mispred = s.mispred) ∨
      (s.phase = .ready ∧ (∃ w a o, s.inputs.head? = some (.command w) ∧ decode w = .command (.step a o)) ∧
        t.total = s.total + 1 ∧ (t.mispred = s.mispred ∨ t.mispred = s.mispred + 1))) ∧
    (s.mispred ≤ s.total → t.mispred ≤ t.total)

/-- The build-time parameters are written by no step (log 4). -/
def Obligations.ParametersAreFixed : Prop :=
  ∀ s t : State, step s = .next t → t.params = s.params

/-- The chooser table changes only on an UPDATE or STEP whose two votes differ (43_tournament.md R145). -/
def Obligations.ChooserMovesOnlyOnDisagreement : Prop :=
  ∀ (s t : State) (u u' : Tournament), step s = .next t → s.variant = .tourn u → t.variant = .tourn u' →
    s.inputs.head? ≠ some .hardwareReset → s.phase ≠ .uninitialized → u'.cpt ≠ u.cpt →
    s.phase = .ready ∧ ∃ w a o, s.inputs.head? = some (.command w) ∧
      (decode w = .command (.update a o) ∨ decode w = .command (.step a o)) ∧ u.globalVote ≠ u.localVote a

/-- A trace whose outcomes are all not-taken, from default counters, never touches the chooser table
(43_tournament.md section 5). -/
def Obligations.NotTakenTraceKeepsChooser : Prop :=
  ∀ (params : Params) (g l p : Nat) (addrs : List Nat), params.initCtr.toNat ≤ 1 →
    (addrs.foldl (fun t a => t.update a false) (Tournament.construct params g l p)).cpt =
      (Tournament.construct params g l p).cpt

/-- The invariant of the registers and of the storage is kept by every step (10_state.md R28 to R30, R37;
40_bitregister.md R103; 20_memory.md R50). -/
def Obligations.StepKeepsInvariant : Prop :=
  ∀ s t : State, Inv s → step s = .next t → Inv t

/-- The invariant of the response port is kept by every step. For commands it comes from 30_encoding.md R78, R79 and
60_exceptions.md R183. A hardware reset out of phase 3 keeps it only because the model empties the port there, which is
the model's choice (log 9, log 3), not a rule of the spec. -/
def Obligations.StepKeepsPortInvariant : Prop :=
  ∀ s t : State, PortInv s → step s = .next t → PortInv t

/-- Both invariants hold at reset. The spec gives the register values (10_state.md R41); the parameters at State.reset
(log 4) and the empty response port, on which the PortInv half rests (log 3), are the model's choices. -/
def Obligations.ResetMeetsInvariants : Prop :=
  Inv State.reset ∧ PortInv State.reset

/-- Every command completes (70_reset_and_hazards.md R211): from a state that meets the invariant no step stops, and no
command does. -/
def Obligations.EveryCommandCompletes : Prop :=
  ∀ s : State, Inv s → (∃ t, step s = .next t) ∧ ∀ i : Instr, ∃ t, exec i s = .next t

/-! ### Frames -/

/-- PREDICT, FINISH, RD.* and ABORT.* write no predictor state and no total, however they end; PREDICT and RD.* that do
not raise an error write the response alone and answer the same again (44_driver.md section 6, 20_memory.md section 4). -/
def Obligations.FrameOfReadsAndReports : Prop :=
  ∀ (s t : State) (i : Instr) (addr info : Nat),
    i = .predict addr ∨ i = .finish ∨ i = .rdTotal ∨ i = .rdMiss ∨ i = .rdStatus ∨ i = .rdConfig ∨
      i = .abortCfg info ∨ i = .abortRec info →
    exec i s = .next t →
    t.params = s.params ∧ t.variant = s.variant ∧ t.total = s.total ∧ t.mispred = s.mispred ∧
    t.inputs = s.inputs ∧
    (i = .predict addr ∨ i = .rdTotal ∨ i = .rdMiss ∨ i = .rdStatus ∨ i = .rdConfig → t.phase = s.phase →
      t = { s with response := t.response } ∧ exec i t = .next t)

/-- CFG.* writes no total, and where it constructs nothing it leaves the predictor state as it was
(44_driver.md section 6). -/
def Obligations.FrameOfConfiguration : Prop :=
  ∀ (s t : State) (i : Instr) (wa wb wc : Nat), i = .cfgGshare wa ∨ i = .cfgTourn wa wb wc →
    exec i s = .next t →
    t.params = s.params ∧ t.total = s.total ∧ t.mispred = s.mispred ∧ t.inputs = s.inputs ∧
    (t.phase ≠ .ready → t.variant = s.variant) ∧
    (t.phase = .ready → t.err = s.err ∧ t.errInfo = s.errInfo)

/-- UPDATE and STEP under gshare: of the table only the counter GSHARE.INDEX gives may change; UPDATE writes no total;
where no error is raised PHASE, ERR and ERRINFO stay (44_driver.md section 6, 42_gshare.md section 4). -/
def Obligations.FrameOfGshareTraining : Prop :=
  ∀ (s t : State) (i : Instr) (addr : Nat) (outcome : Bool) (g : Gshare),
    i = .update addr outcome ∨ i = .step addr outcome → s.variant = .gshare g → exec i s = .next t →
    t.params = s.params ∧ t.inputs = s.inputs ∧
    (i = .update addr outcome → t.total = s.total ∧ t.mispred = s.mispred) ∧
    (t.phase ≠ .faulted → t.phase = s.phase ∧ t.err = s.err ∧ t.errInfo = s.errInfo) ∧
    (t.phase = .faulted → t.variant = s.variant ∧ t.total = s.total ∧ t.mispred = s.mispred) ∧
    ∃ g', t.variant = .gshare g' ∧ g'.historyBits = g.historyBits ∧
      ∀ j, j ≠ g.index addr → g'.pht.read j = g.pht.read j

/-- UPDATE and STEP under tournament: of each table and of the bank only the cell its index computation gives may
change (44_driver.md section 6, 43_tournament.md section 4). -/
def Obligations.FrameOfTournamentTraining : Prop :=
  ∀ (s t : State) (i : Instr) (addr : Nat) (outcome : Bool) (u : Tournament),
    i = .update addr outcome ∨ i = .step addr outcome → s.variant = .tourn u → exec i s = .next t →
    t.params = s.params ∧ t.inputs = s.inputs ∧
    (i = .update addr outcome → t.total = s.total ∧ t.mispred = s.mispred) ∧
    (t.phase ≠ .faulted → t.phase = s.phase ∧ t.err = s.err ∧ t.errInfo = s.errInfo) ∧
    (t.phase = .faulted → t.variant = s.variant ∧ t.total = s.total ∧ t.mispred = s.mispred) ∧
    ∃ u', t.variant = .tourn u' ∧ u'.globalBits = u.globalBits ∧
      u'.localHistoryBits = u.localHistoryBits ∧ u'.pcIndexBits = u.pcIndexBits ∧
      (∀ j, j ≠ lookupIndex u.globalBits u.gIndex → u'.gpt.read j = u.gpt.read j ∧ u'.cpt.read j = u.cpt.read j) ∧
      (∀ j, j ≠ lookupIndex u.localHistoryBits (u.lIndex addr) → u'.lpt.read j = u.lpt.read j) ∧
      (∀ j, j ≠ u.slot addr → u'.lhr.read j = u.lhr.read j)

/-! ### Histories and indices -/

/-- SHIFTIN (40_bitregister.md R101) is `(2 * value + bit) mod 2^w`, and its closed form (section 4): after the bits
`b_1 .. b_n` from 0 the register holds the last `w` of them, the most recent in bit 0. -/
def Obligations.HistoryHoldsLastBits : Prop :=
  (∀ (w value : Nat) (bit : Bool), shiftIn w value bit = (2 * value + bit.toNat) % 2 ^ w) ∧
  ∀ (w : Nat) (bits : List Bool),
    bits.foldl (shiftIn w) 0 =
      ((List.range (min bits.length w)).map fun k => (bits.reverse.getD k false).toNat * 2 ^ k).sum

/-- GHR is global (42_gshare.md section 5): after any updates since construction it holds the last `h` outcomes,
whatever the addresses were. -/
def Obligations.GhrHoldsLastOutcomes : Prop :=
  ∀ (params : Params) (h : Nat) (records : List (Nat × Bool)),
    (records.foldl (fun g r => g.update r.1 r.2) (Gshare.construct params h)).ghr =
      ((List.range (min records.length h)).map fun k =>
        ((records.map Prod.snd).reverse.getD k false).toNat * 2 ^ k).sum

/-- The local history (10_state.md section 5): after any updates since construction, slot `n` holds the last `l`
outcomes of the updates whose address has `address mod 2^p = n`. -/
def Obligations.LocalHistoryHoldsSlotOutcomes : Prop :=
  ∀ (params : Params) (g l p n : Nat) (records : List (Nat × Bool)),
    let mine := (records.filter fun r => r.1 % 2 ^ p == n).map Prod.snd
    n < 2 ^ p →
    (records.foldl (fun t r => t.update r.1 r.2) (Tournament.construct params g l p)).lhr.read n =
      mine.foldl (fun v b => (2 * v + b.toNat) % 2 ^ l) 0

/-- The gshare index is in range and equals `(address mod 2^h) XOR GHR` (42_gshare.md section 2); with `h = 0` it is 0
for every address (section 5). -/
def Obligations.GshareIndexInRange : Prop :=
  ∀ (g : Gshare) (addr : Nat), g.ghr < 2 ^ g.historyBits →
    g.index addr = (addr ^^^ g.ghr) % 2 ^ g.historyBits ∧
    g.index addr = (addr % 2 ^ g.historyBits) ^^^ g.ghr ∧ g.index addr < 2 ^ g.historyBits ∧
    (g.historyBits = 0 → g.index addr = 0)

/-- Aliasing (20_memory.md R64): under gshare two addresses that agree in their low `h` bits, under tournament two that
agree in their low `p` bits, are indistinguishable to PREDICT, UPDATE and STEP. -/
def Obligations.AliasedAddressesAgree : Prop :=
  ∀ (s : State) (a b : Nat) (outcome : Bool),
    (∃ g, s.variant = .gshare g ∧ a % 2 ^ g.historyBits = b % 2 ^ g.historyBits) ∨
    (∃ t, s.variant = .tourn t ∧ a % 2 ^ t.pcIndexBits = b % 2 ^ t.pcIndexBits) →
    exec (.predict a) s = exec (.predict b) s ∧
    exec (.update a outcome) s = exec (.update b outcome) s ∧
    exec (.step a outcome) s = exec (.step b outcome) s

/-! ### The host's side of a run -/

/-- A numeral of the text forms (30_encoding.md R88, R90): the decimal digits are 0-9, the hexadecimal ones 0-9, a-f and
A-F; a numeral is one or more digits and nothing else, read most significant digit first. -/
def Obligations.NumeralIsPositional : Prop :=
  (∀ (c : Char) (d : Nat), FrontEnd.decimalDigit c = some d ↔ d < 10 ∧ c.toNat = '0'.toNat + d) ∧
  (∀ (c : Char) (d : Nat), FrontEnd.hexDigit c = some d ↔
    (d < 10 ∧ c.toNat = '0'.toNat + d) ∨
      (10 ≤ d ∧ d < 16 ∧ (c.toNat + 10 = 'a'.toNat + d ∨ c.toNat + 10 = 'A'.toNat + d))) ∧
  ∀ (base : Nat) (digit : Char → Option Nat) (text : List Char) (value : Nat),
    FrontEnd.numeral base digit text = some value ↔
      ∃ digits : List Nat, digits ≠ [] ∧ text.map digit = digits.map some ∧
        value = Nat.ofDigits base digits.reverse

/-- The configuration string (30_encoding.md section 5). Where the name and the count are right and every width is a
decimal integer below 64, the front end issues the CFG command with the widths in their order (R92 step 1). The
command, performed by a block in phase 0, raises ConfigurationError with the cause that the checks of R89 give for the
string; where they give none, the string is one of R88's two forms and the named variant is constructed with the widths
the string gives. -/
def Obligations.ConfigurationStringOutcome : Prop :=
  ∀ (s : State) (text : List Char), s.phase = .uninitialized → s.params.wf →
    (FrontEnd.configCommand text).wellFormed = true ∧
    (∀ hText h, text = "gshare:".toList ++ hText → FrontEnd.decimal hText = some h → h < 64 →
      FrontEnd.configCommand text = .cfgGshare h) ∧
    (∀ gText lText pText g l p, text = "tournament:".toList ++ gText ++ ':' :: lText ++ ':' :: pText →
      FrontEnd.decimal gText = some g → FrontEnd.decimal lText = some l → FrontEnd.decimal pText = some p →
      g < 64 → l < 64 → p < 64 → FrontEnd.configCommand text = .cfgTourn g l p) ∧
    ∃ t r, exec (FrontEnd.configCommand text) s = .next t ∧ t.response = some r ∧
      match FrontEnd.configCause s.params.maxBits text with
      | none =>
        t.phase = .ready ∧ r.status = 0 ∧
          ((∃ hText v, text = "gshare:".toList ++ hText ∧ t.variant = .gshare v ∧
              FrontEnd.decimal hText = some v.historyBits) ∨
            (∃ gText lText pText v, text = "tournament:".toList ++ gText ++ ':' :: lText ++ ':' :: pText ∧
              t.variant = .tourn v ∧ FrontEnd.decimal gText = some v.globalBits ∧
              FrontEnd.decimal lText = some v.localHistoryBits ∧ FrontEnd.decimal pText = some v.pcIndexBits))
      | some cause =>
        t.phase = .faulted ∧ t.variant = s.variant ∧ t.err = .configuration ∧
          t.errInfo = BitVec.ofNat 4 cause ∧ r.status = 1

/-- The trace line (30_encoding.md R90, R91, R92 step 2): a line is a record exactly when it has the record form and its
address is below `2^32`; a line of that form with a wider address is malformed with INFO 2, and a line not of that form
is malformed with INFO 1. The place of a carriage return is the model's (log 10), and so is the INFO 1 of a line that is
both: not of the form, with an address field that is too wide (log 11). -/
def Obligations.TraceLineForm : Prop :=
  ∀ line : List Char,
    (∀ (addr : Nat) (outcome : Bool),
      FrontEnd.parseLine line = .record addr outcome ↔ RecordForm line addr outcome ∧ addr < 2 ^ 32) ∧
    (FrontEnd.parseLine line = .malformed 2 ↔ ∃ addr outcome, RecordForm line addr outcome ∧ 2 ^ 32 ≤ addr) ∧
    (FrontEnd.parseLine line = .malformed 1 ↔ ∀ addr outcome, ¬ RecordForm line addr outcome)

/-- The lines of a trace text (30_encoding.md R90): no line holds a line feed, and the text is the lines with a line
feed after each, where the last one may be missing after a line that is not empty. So a final line feed starts no empty
record, and any other empty line is one. That an empty text has no line is the model's inference (log 17). -/
def Obligations.TraceLinesOfText : Prop :=
  ∀ (text : List Char) (lines : List (List Char)),
    FrontEnd.traceLines text = lines ↔
      (∀ line ∈ lines, '\n' ∉ line) ∧
      (text = lines.flatMap (fun line => line ++ ['\n']) ∨
        ∃ last, last ≠ [] ∧ lines.getLast? = some last ∧
          text ++ ['\n'] = lines.flatMap (fun line => line ++ ['\n']))

/-- The front end issues STEP per line in order, stops at the first malformed line with ABORT.REC, and at end of input
issues FINISH, RD.TOTAL, RD.MISS (30_encoding.md section 5). -/
def Obligations.TraceCommandsStopAtMalformed : Prop :=
  ∀ (records : List (List Char × Nat × Bool)),
    (∀ r ∈ records, FrontEnd.parseLine r.1 = .record r.2.1 r.2.2) →
    FrontEnd.traceCommands (records.map Prod.fst) =
      (records.map fun r => Instr.step r.2.1 r.2.2) ++ [.finish, .rdTotal, .rdMiss] ∧
    ∀ (line : List Char) (info : Nat) (rest : List (List Char)),
      FrontEnd.parseLine line = .malformed info →
      FrontEnd.traceCommands (records.map Prod.fst ++ line :: rest) =
        (records.map fun r => Instr.step r.2.1 r.2.2) ++ [.abortRec info]

/-- The front end's run (30_encoding.md section 5): the configuration command is performed first; on a status other than
0 nothing more is issued, else the trace's commands are, every one well formed. -/
def Obligations.FrontEndRun : Prop :=
  ∀ (s : State) (config trace : List Char), s.phase = .uninitialized → s.params.wf → s.inputs = [] →
    (∀ i ∈ FrontEnd.traceCommands (FrontEnd.traceLines trace), i.wellFormed = true) ∧
    ∃ t, step (FrontEnd.openRun config s) = .next t ∧ exec (FrontEnd.configCommand config) s = .next t ∧
      match FrontEnd.configCause s.params.maxBits config with
      | none =>
        FrontEnd.continueRun trace t =
          { t with
            inputs := (FrontEnd.traceCommands (FrontEnd.traceLines trace)).map fun i => .command (encode i) }
      | some _ => FrontEnd.continueRun trace t = t

/-- The misprediction rate (44_driver.md R165) is MISPRED / TOTAL, has no value when TOTAL is 0, and lies between 0 and
1 in a state that meets the invariant. -/
def Obligations.MissRateIsQuotient : Prop :=
  ∀ s : State,
    (s.total = 0 → FrontEnd.missRate s.total s.mispred = none) ∧
    (0 < s.total → ∃ q : Rat, FrontEnd.missRate s.total s.mispred = some q ∧
      q * (s.total : Rat) = (s.mispred : Rat) ∧ (Inv s → 0 ≤ q ∧ q ≤ 1))
end

