-- ==== Sys2Proof/Laws/Encoding.lean ====
section
/-! SUPPORT. The small lemmas of the encoding definitions. -/

namespace Sys2Proof

@[simp] theorem widthFits_iff (w : Nat) : widthFits w = true ↔ w < 2 ^ 6 := decide_eq_true_iff

@[simp] theorem addrFits_iff (a : Nat) : addrFits a = true ↔ a < 2 ^ 32 := decide_eq_true_iff

@[simp] theorem infoFits_iff (n : Nat) : infoFits n = true ↔ n < 2 ^ 4 := decide_eq_true_iff

theorem boolBit_le (b : Bool) : boolBit b ≤ 1 := by cases b <;> decide

@[simp] theorem boolBit_true : boolBit true = 1 := rfl

@[simp] theorem boolBit_false : boolBit false = 0 := rfl

theorem slice_lt (v hi lo : Nat) : slice v hi lo < 2 ^ (hi - lo + 1) :=
  Nat.mod_lt _ (Nat.two_pow_pos _)

/-- The opcode is a value of four bits (30_encoding.md R71). -/
theorem opcode_lt (i : Instr) : i.opcode < 2 ^ 4 := by
  cases i <;> simp [Instr.opcode]

/-- `ifReservedZero` answers the command exactly when the reserved bits are 0 (30_encoding.md R82 (b)). -/
theorem ifReservedZero_cases (b : Bool) (i : Instr) :
    (b = true ∧ ifReservedZero b i = .command i) ∨ (b = false ∧ ifReservedZero b i = .illegal .reservedBits) := by
  cases b
  · exact .inr ⟨rfl, rfl⟩
  · exact .inl ⟨rfl, rfl⟩

end Sys2Proof
end

