-- ==== Sys2Proof/Laws/FrontEnd.lean ====
section
/-! SUPPORT. What the text front end's lexical functions can do (30_encoding.md R88, R90): one lemma each, for the
statements about configuration strings and traces. -/

namespace Sys2Proof.Machine.FrontEnd

theorem isBlank_iff (c : Char) : isBlank c = true ↔ c = ' ' ∨ c = '\t' := by simp [isBlank]

/-! ### Splitting -/

theorem pieces_ne_nil (sep : Char) (text : List Char) : pieces sep text ≠ [] := by
  cases text with
  | nil => simp [pieces]
  | cons c cs =>
    rw [pieces]
    split
    · simp
    · split <;> simp

/-- A text without the separator is one piece. -/
theorem pieces_of_notMem {sep : Char} {text : List Char} (h : sep ∉ text) : pieces sep text = [text] := by
  induction text with
  | nil => rfl
  | cons c cs ih =>
    rw [List.mem_cons, not_or] at h
    simp [pieces, Ne.symm h.1, ih h.2]

/-- The part before the first separator is the first piece. -/
theorem pieces_append {sep : Char} {first : List Char} (h : sep ∉ first) (rest : List Char) :
    pieces sep (first ++ sep :: rest) = first :: pieces sep rest := by
  induction first with
  | nil => simp [pieces]
  | cons c cs ih =>
    rw [List.mem_cons, not_or] at h
    simp [pieces, Ne.symm h.1, ih h.2]

/-- No piece holds the separator. -/
theorem notMem_of_mem_pieces {sep : Char} {text piece : List Char} (h : piece ∈ pieces sep text) : sep ∉ piece := by
  induction text generalizing piece with
  | nil => simp [pieces] at h; simp [h]
  | cons c cs ih =>
    rw [pieces] at h
    split at h
    · rcases List.mem_cons.1 h with rfl | h
      · simp
      · exact ih h
    · next hc =>
      split at h
      · simp_all [pieces_ne_nil]
      · next p ps hp =>
        rw [hp] at ih
        rcases List.mem_cons.1 h with rfl | h
        · simpa [Ne.symm hc] using ih (List.mem_cons_self)
        · exact ih (List.mem_cons_of_mem _ h)

/-- The text is its pieces, each followed by a separator that the last one lacks. -/
theorem flatMap_pieces (sep : Char) (text : List Char) :
    (pieces sep text).flatMap (fun piece => piece ++ [sep]) = text ++ [sep] := by
  induction text with
  | nil => rfl
  | cons c cs ih =>
    rw [pieces]
    split
    · next hc => simp [ih, hc]
    · split
      · next hp => exact absurd hp (pieces_ne_nil _ _)
      · next p ps hp => rw [hp] at ih; simpa using ih

/-- Pieces that hold no separator are recovered from the text they make. -/
theorem pieces_flatMap {sep : Char} {lines : List (List Char)} (h : ∀ line ∈ lines, sep ∉ line) (rest : List Char) :
    pieces sep (lines.flatMap (fun line => line ++ [sep]) ++ rest) = lines ++ pieces sep rest := by
  induction lines with
  | nil => rfl
  | cons line lines ih =>
    have := pieces_append (h line List.mem_cons_self) (lines.flatMap (fun line => line ++ [sep]) ++ rest)
    simpa [ih fun l hl => h l (List.mem_cons_of_mem _ hl)] using this

/-! ### Numerals -/

/-- A character with no digit value stands in no numeral. -/
theorem numeralFrom_notMem {base acc value : Nat} {digit : Char → Option Nat} {text : List Char} {c : Char}
    (hc : digit c = none) (h : numeralFrom base digit acc text = some value) : c ∉ text := by
  induction text generalizing acc with
  | nil => simp
  | cons d ds ih =>
    rw [numeralFrom] at h
    split at h
    · next hd => exact fun hm => (List.mem_cons.1 hm).elim (fun e => by simp_all) (ih h)
    · cases h

theorem numeral_notMem {base value : Nat} {digit : Char → Option Nat} {text : List Char} {c : Char}
    (hc : digit c = none) (h : numeral base digit text = some value) : c ∉ text := by
  cases text with
  | nil => simp
  | cons d ds => exact numeralFrom_notMem hc h

/-- A decimal integer holds no colon. -/
theorem decimal_notMem_colon {text : List Char} {value : Nat} (h : decimal text = some value) : ':' ∉ text :=
  numeral_notMem (by decide) h

/-- `decimals` succeeds exactly with every piece's value, in order. -/
theorem decimals_eq_some {texts : List (List Char)} {values : List Nat} :
    decimals texts = some values ↔ texts.map decimal = values.map some := by
  induction texts generalizing values with
  | nil => cases values <;> simp [decimals]
  | cons t ts ih =>
    rw [decimals]
    cases values with
    | nil => split <;> simp
    | cons v vs =>
      split
      · next w ws hw hws => simp [hw, ← ih, hws]
      · next hn =>
        simp only [List.map_cons, List.cons.injEq, reduceCtorEq, false_iff, not_and]
        intro ht hts
        exact hn v vs ht (ih.2 hts)

/-! ### Trace lines -/

/-- A prefix of characters that meet `p`, before one that does not, is what `takeWhile` takes. -/
theorem takeWhile_dropWhile_append {p : Char → Bool} {first rest : List Char} (h : ∀ c ∈ first, p c = true)
    (hr : rest.head?.all (fun c => !p c) = true) :
    (first ++ rest).takeWhile p = first ∧ (first ++ rest).dropWhile p = rest := by
  induction first with
  | nil => cases rest <;> simp_all
  | cons c cs ih => simp [h c List.mem_cons_self, ih fun x hx => h x (List.mem_cons_of_mem _ hx)]

/-- The end of a line is blanks and at most one carriage return (log 10). -/
theorem isLineEnd_iff (text : List Char) : isLineEnd text = true ↔
    ∃ trail cr, text = trail ++ cr ∧ (∀ b ∈ trail, b = ' ' ∨ b = '\t') ∧ (cr = [] ∨ cr = ['\r']) := by
  constructor
  · intro h
    refine ⟨text.takeWhile isBlank, text.dropWhile isBlank, List.takeWhile_append_dropWhile.symm, ?_, ?_⟩
    · exact fun b hb => (isBlank_iff b).1 (List.mem_takeWhile_imp hb)
    · simpa [isLineEnd] using h
  · rintro ⟨trail, cr, rfl, ht, hc⟩
    have := (takeWhile_dropWhile_append (rest := cr) (fun x hx => (isBlank_iff x).2 (ht x hx))
      (by rcases hc with rfl | rfl <;> rfl)).2
    rw [isLineEnd, this]
    rcases hc with rfl | rfl <;> rfl

/-- The rest of a record line: blanks, the outcome digit and the line's end (R90). -/
theorem outcomeField_iff (text : List Char) (outcome : Bool) : outcomeField text = some outcome ↔
    ∃ blanks tail, text = blanks ++ (if outcome then '1' else '0') :: tail ∧ blanks ≠ [] ∧
      (∀ b ∈ blanks, b = ' ' ∨ b = '\t') ∧ isLineEnd tail = true := by
  constructor
  · intro h
    unfold outcomeField at h
    split at h
    · cases h
    · next c rest =>
      split at h
      · next hb =>
        have key : ∀ d tail, rest.dropWhile isBlank = d :: tail → isLineEnd tail = true →
            ∃ blanks tail', c :: rest = blanks ++ d :: tail' ∧ blanks ≠ [] ∧
              (∀ b ∈ blanks, b = ' ' ∨ b = '\t') ∧ isLineEnd tail' = true := by
          intro d tail hd ht
          refine ⟨c :: rest.takeWhile isBlank, tail, ?_, by simp, ?_, ht⟩
          · have := (List.takeWhile_append_dropWhile (p := isBlank) (l := rest)).symm
            rw [hd] at this
            simpa using this
          · intro b hm
            rw [← isBlank_iff]
            rcases List.mem_cons.1 hm with rfl | hm
            · exact hb
            · exact List.mem_takeWhile_imp hm
        split at h
        · next tail hd => split at h <;> cases h; exact key '0' _ hd ‹_›
        · next tail hd => split at h <;> cases h; exact key '1' _ hd ‹_›
        · cases h
      · cases h
  · rintro ⟨blanks, tail, rfl, hne, hb, he⟩
    cases blanks with
    | nil => exact absurd rfl hne
    | cons b bs =>
      have hd := (takeWhile_dropWhile_append (first := bs) (rest := (if outcome then '1' else '0') :: tail)
        (fun x hx => (isBlank_iff x).2 (hb x (List.mem_cons_of_mem _ hx))) (by cases outcome <;> rfl)).2
      simp only [List.cons_append, outcomeField, (isBlank_iff b).2 (hb b List.mem_cons_self), if_true, hd]
      cases outcome <;> simp [he]

/-- The prefix that is taken off is `0x`, `0X` or nothing (R90). -/
theorem withoutPrefix_cases (line : List Char) : ∃ lead, line = lead ++ withoutPrefix line ∧
    (lead = [] ∨ lead = ['0', 'x'] ∨ lead = ['0', 'X']) := by
  unfold withoutPrefix
  split
  · exact ⟨['0', 'x'], rfl, by simp⟩
  · exact ⟨['0', 'X'], rfl, by simp⟩
  · exact ⟨[], rfl, by simp⟩

/-- A malformed line's INFO is 1 or 2 (R92 step 2). -/
theorem parseLine_info {line : List Char} {info : Nat} (h : parseLine line = .malformed info) :
    info = syntaxInfo ∨ info = addressInfo := by
  unfold parseLine at h
  split at h
  · split at h <;> cases h
    exact .inr rfl
  · cases h
    exact .inl rfl

end Sys2Proof.Machine.FrontEnd
end

