-- ==== Sys2Proof/Laws/Memory.lean ====
section
/-! SUPPORT. The laws of the block's memories: a read after a write, what a write leaves alone, and that every memory
operation keeps the canonical form. -/

namespace Sys2Proof.Machine

variable {α : Type} [DecidableEq α]

/-- In a canonical listing whose indices are above `i`, index `i` is unlisted. -/
theorem cellsRead_below (fill : α) {low i : Nat} {cells : List (Nat × α)} (h : cellsWf fill low cells = true)
    (hi : i < low) : cellsRead fill cells i = fill := by
  induction cells generalizing low with
  | nil => rfl
  | cons c rest ih =>
    obtain ⟨j, v⟩ := c
    simp only [cellsWf, Bool.and_eq_true, decide_eq_true_eq] at h
    have hne : i ≠ j := by omega
    simp only [cellsRead, if_neg hne]
    exact ih h.2 (by omega)

theorem cellsRead_cons_same (fill : α) (i : Nat) (v : α) {rest : List (Nat × α)}
    (h : cellsRead fill rest i = fill) : cellsRead fill (cellsCons fill i v rest) i = v := by
  unfold cellsCons
  split
  · next hv => rw [h, hv]
  · simp [cellsRead]

theorem cellsRead_cons_other (fill : α) {i j : Nat} (v : α) (rest : List (Nat × α)) (h : j ≠ i) :
    cellsRead fill (cellsCons fill i v rest) j = cellsRead fill rest j := by
  unfold cellsCons
  split
  · rfl
  · simp [cellsRead, h]

theorem cellsRead_write_same (fill : α) {low i : Nat} (v : α) {cells : List (Nat × α)}
    (h : cellsWf fill low cells = true) : cellsRead fill (cellsWrite fill i v cells) i = v := by
  induction cells generalizing low with
  | nil => exact cellsRead_cons_same fill i v rfl
  | cons c rest ih =>
    obtain ⟨j, u⟩ := c
    have h' := h
    simp only [cellsWf, Bool.and_eq_true, decide_eq_true_eq] at h
    simp only [cellsWrite]
    split
    · next hlt =>
      refine cellsRead_cons_same fill i v ?_
      have hne : i ≠ j := by omega
      simp only [cellsRead, if_neg hne]
      exact cellsRead_below fill h.2 (by omega)
    · split
      · next _ heq =>
        exact cellsRead_cons_same fill i v (cellsRead_below fill h.2 (by omega))
      · next _ hne =>
        simp only [cellsRead, if_neg hne]
        exact ih h.2

theorem cellsRead_write_other (fill : α) {i j : Nat} (v : α) (cells : List (Nat × α)) (hji : j ≠ i) :
    cellsRead fill (cellsWrite fill i v cells) j = cellsRead fill cells j := by
  induction cells with
  | nil => exact cellsRead_cons_other fill v [] hji
  | cons c rest ih =>
    obtain ⟨k, u⟩ := c
    simp only [cellsWrite]
    split
    · exact cellsRead_cons_other fill v _ hji
    · split
      · next _ heq =>
        have hjk : j ≠ k := by omega
        rw [cellsRead_cons_other fill v rest hji]
        simp [cellsRead, hjk]
      · simp only [cellsRead, ih]

theorem cellsWf_mono (fill : α) {low low' : Nat} {cells : List (Nat × α)} (hle : low' ≤ low)
    (h : cellsWf fill low cells = true) : cellsWf fill low' cells = true := by
  cases cells with
  | nil => rfl
  | cons c rest =>
    obtain ⟨j, v⟩ := c
    simp only [cellsWf, Bool.and_eq_true, decide_eq_true_eq] at h ⊢
    exact ⟨⟨by omega, h.1.2⟩, h.2⟩

theorem cellsWf_cons (fill : α) {low i : Nat} (v : α) {rest : List (Nat × α)} (hlow : low ≤ i)
    (h : cellsWf fill (i + 1) rest = true) : cellsWf fill low (cellsCons fill i v rest) = true := by
  unfold cellsCons
  split
  · exact cellsWf_mono fill (by omega) h
  · next hv => simp [cellsWf, hlow, hv, h]

theorem cellsWf_write (fill : α) {low i : Nat} (v : α) {cells : List (Nat × α)} (hlow : low ≤ i)
    (h : cellsWf fill low cells = true) : cellsWf fill low (cellsWrite fill i v cells) = true := by
  induction cells generalizing low with
  | nil => exact cellsWf_cons fill v hlow rfl
  | cons c rest ih =>
    obtain ⟨j, u⟩ := c
    simp only [cellsWf, Bool.and_eq_true, decide_eq_true_eq] at h
    simp only [cellsWrite]
    split
    · next hlt =>
      refine cellsWf_cons fill v hlow ?_
      simp only [cellsWf, Bool.and_eq_true, decide_eq_true_eq]
      exact ⟨⟨by omega, h.1.2⟩, h.2⟩
    · split
      · next _ heq => exact cellsWf_cons fill v hlow (heq ▸ h.2)
      · next hnlt hne =>
        simp only [cellsWf, Bool.and_eq_true, decide_eq_true_eq]
        exact ⟨h.1, ih (by omega) h.2⟩

omit [DecidableEq α] in
theorem allCells_within (size : Nat) (cells : List (Nat × α)) :
    (cells.all fun c => decide (c.1 < size)) = true ↔ ∀ c ∈ cells, c.1 < size := by
  simp [List.all_eq_true]

theorem cellsWrite_within (fill : α) {size i : Nat} (v : α) {cells : List (Nat × α)} (hi : i < size)
    (h : ∀ c ∈ cells, c.1 < size) : ∀ c ∈ cellsWrite fill i v cells, c.1 < size := by
  have hcons : ∀ rest : List (Nat × α), (∀ c ∈ rest, c.1 < size) → ∀ c ∈ cellsCons fill i v rest, c.1 < size := by
    intro rest hr c hc
    unfold cellsCons at hc
    split at hc
    · exact hr c hc
    · rcases List.mem_cons.1 hc with rfl | hc
      · exact hi
      · exact hr c hc
  induction cells with
  | nil => exact hcons [] h
  | cons d rest ih =>
    obtain ⟨j, u⟩ := d
    have hrest : ∀ c ∈ rest, c.1 < size := fun c hc => h c (List.mem_cons_of_mem _ hc)
    simp only [cellsWrite]
    split
    · exact hcons _ h
    · split
      · exact hcons rest hrest
      · intro c hc
        rcases List.mem_cons.1 hc with rfl | hc
        · exact h _ List.mem_cons_self
        · exact ih hrest c hc

namespace Memory

omit [DecidableEq α] in
/-- A freshly initialised memory reads `init` everywhere (41_counter_table.md R116). -/
@[simp] theorem read_filled (init : α) (i : Nat) : (Memory.filled init).read i = init := rfl

@[simp] theorem write_fill (m : Memory α) (i : Nat) (v : α) : (m.write i v).fill = m.fill := rfl

/-- A read after a write to the same cell gives the value written. -/
theorem read_write_same (m : Memory α) (h : m.wf = true) (i : Nat) (v : α) : (m.write i v).read i = v :=
  cellsRead_write_same m.fill v h

/-- A write leaves every other cell alone (41_counter_table.md R118). -/
theorem read_write_other (m : Memory α) {i j : Nat} (v : α) (h : j ≠ i) : (m.write i v).read j = m.read j :=
  cellsRead_write_other m.fill v m.cells h

@[simp] theorem wf_filled (init : α) : (Memory.filled init).wf = true := rfl

omit [DecidableEq α] in
@[simp] theorem within_filled (size : Nat) (init : α) : (Memory.filled init).within size = true := rfl

/-- A write keeps the canonical form. -/
theorem wf_write (m : Memory α) (h : m.wf = true) (i : Nat) (v : α) : (m.write i v).wf = true :=
  cellsWf_write m.fill v (Nat.zero_le i) h

/-- A write inside a memory leaves no cell outside it. -/
theorem within_write {size : Nat} (m : Memory α) (h : m.within size = true) {i : Nat} (hi : i < size) (v : α) :
    (m.write i v).within size = true :=
  (allCells_within size _).2 (cellsWrite_within m.fill v hi ((allCells_within size _).1 h))

end Memory

end Sys2Proof.Machine
end

