-- ==== Sys2Proof/Laws/State.lean ====
section
/-! SUPPORT. One lemma per field per update of `State`, each true by unfolding, so that no proof unfolds a record
update. -/

namespace Sys2Proof.Machine.State

variable (s : State)

/-! `respond` writes the response port alone (30_encoding.md R78). -/

@[simp] theorem respond_params (status : BitVec 4) (data : Word) :
    (s.respond status data).params = s.params := rfl
@[simp] theorem respond_phase (status : BitVec 4) (data : Word) :
    (s.respond status data).phase = s.phase := rfl
@[simp] theorem respond_variant (status : BitVec 4) (data : Word) :
    (s.respond status data).variant = s.variant := rfl
@[simp] theorem respond_err (status : BitVec 4) (data : Word) :
    (s.respond status data).err = s.err := rfl
@[simp] theorem respond_errInfo (status : BitVec 4) (data : Word) :
    (s.respond status data).errInfo = s.errInfo := rfl
@[simp] theorem respond_total (status : BitVec 4) (data : Word) :
    (s.respond status data).total = s.total := rfl
@[simp] theorem respond_mispred (status : BitVec 4) (data : Word) :
    (s.respond status data).mispred = s.mispred := rfl
@[simp] theorem respond_inputs (status : BitVec 4) (data : Word) :
    (s.respond status data).inputs = s.inputs := rfl
@[simp] theorem respond_response (status : BitVec 4) (data : Word) :
    (s.respond status data).response = some { status := status, data := data } := rfl

/-! `respondOk` writes the response port alone. -/

@[simp] theorem respondOk_params (data : Word) :
    (s.respondOk data).params = s.params := rfl
@[simp] theorem respondOk_phase (data : Word) :
    (s.respondOk data).phase = s.phase := rfl
@[simp] theorem respondOk_variant (data : Word) :
    (s.respondOk data).variant = s.variant := rfl
@[simp] theorem respondOk_err (data : Word) :
    (s.respondOk data).err = s.err := rfl
@[simp] theorem respondOk_errInfo (data : Word) :
    (s.respondOk data).errInfo = s.errInfo := rfl
@[simp] theorem respondOk_total (data : Word) :
    (s.respondOk data).total = s.total := rfl
@[simp] theorem respondOk_mispred (data : Word) :
    (s.respondOk data).mispred = s.mispred := rfl
@[simp] theorem respondOk_inputs (data : Word) :
    (s.respondOk data).inputs = s.inputs := rfl
@[simp] theorem respondOk_response (data : Word) :
    (s.respondOk data).response = some { status := statusOk, data := data } := rfl

/-! `recordError` writes ERR, ERRINFO and PHASE alone (60_exceptions.md R181). -/

@[simp] theorem recordError_params (e : ErrKind) (info : BitVec 4) :
    (s.recordError e info).params = s.params := rfl
@[simp] theorem recordError_phase (e : ErrKind) (info : BitVec 4) :
    (s.recordError e info).phase = .faulted := rfl
@[simp] theorem recordError_variant (e : ErrKind) (info : BitVec 4) :
    (s.recordError e info).variant = s.variant := rfl
@[simp] theorem recordError_err (e : ErrKind) (info : BitVec 4) :
    (s.recordError e info).err = e := rfl
@[simp] theorem recordError_errInfo (e : ErrKind) (info : BitVec 4) :
    (s.recordError e info).errInfo = info := rfl
@[simp] theorem recordError_total (e : ErrKind) (info : BitVec 4) :
    (s.recordError e info).total = s.total := rfl
@[simp] theorem recordError_mispred (e : ErrKind) (info : BitVec 4) :
    (s.recordError e info).mispred = s.mispred := rfl
@[simp] theorem recordError_inputs (e : ErrKind) (info : BitVec 4) :
    (s.recordError e info).inputs = s.inputs := rfl
@[simp] theorem recordError_response (e : ErrKind) (info : BitVec 4) :
    (s.recordError e info).response = s.response := rfl

/-! `raise` writes ERR, ERRINFO, PHASE and the response (60_exceptions.md R181). -/

@[simp] theorem raise_params (e : ErrKind) (info : BitVec 4) :
    (s.raise e info).params = s.params := rfl
@[simp] theorem raise_phase (e : ErrKind) (info : BitVec 4) :
    (s.raise e info).phase = .faulted := rfl
@[simp] theorem raise_variant (e : ErrKind) (info : BitVec 4) :
    (s.raise e info).variant = s.variant := rfl
@[simp] theorem raise_err (e : ErrKind) (info : BitVec 4) :
    (s.raise e info).err = e := rfl
@[simp] theorem raise_errInfo (e : ErrKind) (info : BitVec 4) :
    (s.raise e info).errInfo = info := rfl
@[simp] theorem raise_total (e : ErrKind) (info : BitVec 4) :
    (s.raise e info).total = s.total := rfl
@[simp] theorem raise_mispred (e : ErrKind) (info : BitVec 4) :
    (s.raise e info).mispred = s.mispred := rfl
@[simp] theorem raise_inputs (e : ErrKind) (info : BitVec 4) :
    (s.raise e info).inputs = s.inputs := rfl
@[simp] theorem raise_response (e : ErrKind) (info : BitVec 4) :
    (s.raise e info).response = some { status := e.status, data := (s.recordError e info).statusData } := rfl

/-! `respondFaulted` writes the response port alone (60_exceptions.md R183). -/

@[simp] theorem respondFaulted_params :
    (s.respondFaulted).params = s.params := rfl
@[simp] theorem respondFaulted_phase :
    (s.respondFaulted).phase = s.phase := rfl
@[simp] theorem respondFaulted_variant :
    (s.respondFaulted).variant = s.variant := rfl
@[simp] theorem respondFaulted_err :
    (s.respondFaulted).err = s.err := rfl
@[simp] theorem respondFaulted_errInfo :
    (s.respondFaulted).errInfo = s.errInfo := rfl
@[simp] theorem respondFaulted_total :
    (s.respondFaulted).total = s.total := rfl
@[simp] theorem respondFaulted_mispred :
    (s.respondFaulted).mispred = s.mispred := rfl
@[simp] theorem respondFaulted_inputs :
    (s.respondFaulted).inputs = s.inputs := rfl
@[simp] theorem respondFaulted_response :
    (s.respondFaulted).response = some { status := statusFaulted, data := s.statusData } := rfl

/-! `construct` writes the variant and PHASE (44_driver.md R151, R153). -/

@[simp] theorem construct_params (v : Variant) :
    (s.construct v).params = s.params := rfl
@[simp] theorem construct_phase (v : Variant) :
    (s.construct v).phase = .ready := rfl
@[simp] theorem construct_variant (v : Variant) :
    (s.construct v).variant = v := rfl
@[simp] theorem construct_err (v : Variant) :
    (s.construct v).err = s.err := rfl
@[simp] theorem construct_errInfo (v : Variant) :
    (s.construct v).errInfo = s.errInfo := rfl
@[simp] theorem construct_total (v : Variant) :
    (s.construct v).total = s.total := rfl
@[simp] theorem construct_mispred (v : Variant) :
    (s.construct v).mispred = s.mispred := rfl
@[simp] theorem construct_inputs (v : Variant) :
    (s.construct v).inputs = s.inputs := rfl
@[simp] theorem construct_response (v : Variant) :
    (s.construct v).response = s.response := rfl

/-! `finish` writes PHASE (44_driver.md R160). -/

@[simp] theorem finish_params :
    (s.finish).params = s.params := rfl
@[simp] theorem finish_phase :
    (s.finish).phase = .finished := rfl
@[simp] theorem finish_variant :
    (s.finish).variant = s.variant := rfl
@[simp] theorem finish_err :
    (s.finish).err = s.err := rfl
@[simp] theorem finish_errInfo :
    (s.finish).errInfo = s.errInfo := rfl
@[simp] theorem finish_total :
    (s.finish).total = s.total := rfl
@[simp] theorem finish_mispred :
    (s.finish).mispred = s.mispred := rfl
@[simp] theorem finish_inputs :
    (s.finish).inputs = s.inputs := rfl
@[simp] theorem finish_response :
    (s.finish).response = s.response := rfl

/-! `withVariant` writes the predictor state. -/

@[simp] theorem withVariant_params (v : Variant) :
    (s.withVariant v).params = s.params := rfl
@[simp] theorem withVariant_phase (v : Variant) :
    (s.withVariant v).phase = s.phase := rfl
@[simp] theorem withVariant_variant (v : Variant) :
    (s.withVariant v).variant = v := rfl
@[simp] theorem withVariant_err (v : Variant) :
    (s.withVariant v).err = s.err := rfl
@[simp] theorem withVariant_errInfo (v : Variant) :
    (s.withVariant v).errInfo = s.errInfo := rfl
@[simp] theorem withVariant_total (v : Variant) :
    (s.withVariant v).total = s.total := rfl
@[simp] theorem withVariant_mispred (v : Variant) :
    (s.withVariant v).mispred = s.mispred := rfl
@[simp] theorem withVariant_inputs (v : Variant) :
    (s.withVariant v).inputs = s.inputs := rfl
@[simp] theorem withVariant_response (v : Variant) :
    (s.withVariant v).response = s.response := rfl

/-! `count` writes TOTAL and MISPRED (44_driver.md R158). -/

@[simp] theorem count_params (miss : Bool) :
    (s.count miss).params = s.params := rfl
@[simp] theorem count_phase (miss : Bool) :
    (s.count miss).phase = s.phase := rfl
@[simp] theorem count_variant (miss : Bool) :
    (s.count miss).variant = s.variant := rfl
@[simp] theorem count_err (miss : Bool) :
    (s.count miss).err = s.err := rfl
@[simp] theorem count_errInfo (miss : Bool) :
    (s.count miss).errInfo = s.errInfo := rfl
@[simp] theorem count_total (miss : Bool) :
    (s.count miss).total = s.total + 1 := rfl
@[simp] theorem count_mispred (miss : Bool) :
    (s.count miss).mispred = s.mispred + boolBit miss := rfl
@[simp] theorem count_inputs (miss : Bool) :
    (s.count miss).inputs = s.inputs := rfl
@[simp] theorem count_response (miss : Bool) :
    (s.count miss).response = s.response := rfl

/-! `withInputs` writes the host inputs alone. -/

@[simp] theorem withInputs_params (rest : List HostInput) :
    (s.withInputs rest).params = s.params := rfl
@[simp] theorem withInputs_phase (rest : List HostInput) :
    (s.withInputs rest).phase = s.phase := rfl
@[simp] theorem withInputs_variant (rest : List HostInput) :
    (s.withInputs rest).variant = s.variant := rfl
@[simp] theorem withInputs_err (rest : List HostInput) :
    (s.withInputs rest).err = s.err := rfl
@[simp] theorem withInputs_errInfo (rest : List HostInput) :
    (s.withInputs rest).errInfo = s.errInfo := rfl
@[simp] theorem withInputs_total (rest : List HostInput) :
    (s.withInputs rest).total = s.total := rfl
@[simp] theorem withInputs_mispred (rest : List HostInput) :
    (s.withInputs rest).mispred = s.mispred := rfl
@[simp] theorem withInputs_inputs (rest : List HostInput) :
    (s.withInputs rest).inputs = rest := rfl
@[simp] theorem withInputs_response (rest : List HostInput) :
    (s.withInputs rest).response = s.response := rfl

/-! `hardwareReset` leaves the parameters and the host inputs alone (70_reset_and_hazards.md R200). -/

@[simp] theorem hardwareReset_params :
    (s.hardwareReset).params = s.params := rfl
@[simp] theorem hardwareReset_phase :
    (s.hardwareReset).phase = .uninitialized := rfl
@[simp] theorem hardwareReset_variant :
    (s.hardwareReset).variant = .unconfigured := rfl
@[simp] theorem hardwareReset_err :
    (s.hardwareReset).err = .noError := rfl
@[simp] theorem hardwareReset_errInfo :
    (s.hardwareReset).errInfo = 0 := rfl
@[simp] theorem hardwareReset_total :
    (s.hardwareReset).total = 0 := rfl
@[simp] theorem hardwareReset_mispred :
    (s.hardwareReset).mispred = 0 := rfl
@[simp] theorem hardwareReset_inputs :
    (s.hardwareReset).inputs = s.inputs := rfl
@[simp] theorem hardwareReset_response :
    (s.hardwareReset).response = none := rfl

/-! The host inputs and the response port are no part of the two status layouts (30_encoding.md R80). -/

@[simp] theorem respond_statusData (status : BitVec 4) (data : Word) :
    (s.respond status data).statusData = s.statusData := rfl
@[simp] theorem respondOk_statusData (data : Word) : (s.respondOk data).statusData = s.statusData := rfl
@[simp] theorem withInputs_statusData (rest : List HostInput) : (s.withInputs rest).statusData = s.statusData := rfl
@[simp] theorem withInputs_configData (rest : List HostInput) : (s.withInputs rest).configData = s.configData := rfl
@[simp] theorem respond_configData (status : BitVec 4) (data : Word) :
    (s.respond status data).configData = s.configData := rfl

/-- The status a raised error leaves to read is the one its response carries (60_exceptions.md R181). -/
@[simp] theorem raise_statusData (e : ErrKind) (info : BitVec 4) :
    (s.raise e info).statusData = (s.recordError e info).statusData := rfl

end Sys2Proof.Machine.State
end

