-- ==== Sys2Proof/Laws/Ops.lean ====
section
/-! SUPPORT. For each shared operation, what it can do. -/

namespace Sys2Proof.Machine

/-! ### The frame -/

/-- Everything the frame of 44_driver.md R150 can do. -/
theorem framed_cases (legalIn : Phase → Bool) (perform : State → Result) (s : State) :
    (s.phase = .faulted ∧ framed legalIn perform s = .next s.respondFaulted) ∨
    (s.phase ≠ .faulted ∧ legalIn s.phase = true ∧ framed legalIn perform s = perform s) ∨
    (s.phase ≠ .faulted ∧ legalIn s.phase = false ∧
      framed legalIn perform s = .next (s.raise .phase s.phase.info)) := by
  unfold framed
  by_cases hf : s.phase = .faulted
  · exact .inl ⟨hf, if_pos hf⟩
  · cases hl : legalIn s.phase
    · exact .inr (.inr ⟨hf, rfl, by simp [hf]⟩)
    · exact .inr (.inl ⟨hf, rfl, by simp [hf]⟩)

theorem framed_faulted {legalIn : Phase → Bool} {perform : State → Result} {s : State} (h : s.phase = .faulted) :
    framed legalIn perform s = .next s.respondFaulted := if_pos h

theorem framed_legal {legalIn : Phase → Bool} {perform : State → Result} {s : State} (hf : s.phase ≠ .faulted)
    (hl : legalIn s.phase = true) : framed legalIn perform s = perform s := by
  simp [framed, hf, hl]

theorem framed_illegal {legalIn : Phase → Bool} {perform : State → Result} {s : State} (hf : s.phase ≠ .faulted)
    (hl : legalIn s.phase = false) : framed legalIn perform s = .next (s.raise .phase s.phase.info) := by
  simp [framed, hf, hl]

@[simp] theorem inUninitialized_iff (p : Phase) : inUninitialized p = true ↔ p = .uninitialized := by
  cases p <;> simp [inUninitialized]

@[simp] theorem inReady_iff (p : Phase) : inReady p = true ↔ p = .ready := by
  cases p <;> simp [inReady]

@[simp] theorem unlessFaulted_iff (p : Phase) : unlessFaulted p = true ↔ p ≠ .faulted := by
  cases p <;> simp [unlessFaulted]

/-- Everything a CFG command's own rule can do (44_driver.md R151 to R154). -/
theorem configure_cases (widths : List Nat) (v : Variant) (s : State) :
    (∃ cause, widthsError s.params.maxBits widths = some cause ∧
      configure widths v s = .next (s.raise .configuration cause)) ∨
    (widthsError s.params.maxBits widths = none ∧
      configure widths v s = .next ((s.construct v).respondOk 0)) := by
  unfold configure
  cases h : widthsError s.params.maxBits widths with
  | none => exact .inr ⟨rfl, rfl⟩
  | some cause => exact .inl ⟨cause, rfl, rfl⟩

/-- Widths pass the check exactly when every one is in `1 .. MAX_BITS` (44_driver.md R151, R153). -/
theorem widthsError_none_iff (maxBits : Nat) (widths : List Nat) :
    widthsError maxBits widths = none ↔ ∀ w ∈ widths, WidthOk maxBits w := by
  unfold widthsError WidthOk
  constructor
  · intro h w hw
    split at h
    · cases h
    · split at h
      · cases h
      · next h0 h1 =>
        simp only [List.any_eq_true, beq_iff_eq, decide_eq_true_eq, not_exists, not_and] at h0 h1
        have := h0 w hw
        have := h1 w hw
        omega
  · intro h
    have h0 : (widths.any fun w => w == 0) = false := by
      rw [List.any_eq_false]
      intro w hw
      have := h w hw
      simp only [beq_iff_eq]
      omega
    have h1 : (widths.any fun w => decide (maxBits < w)) = false := by
      rw [List.any_eq_false]
      intro w hw
      have := h w hw
      simp only [decide_eq_true_eq]
      omega
    simp [h0, h1]

/-- With a variant constructed, PREDICT, UPDATE and STEP perform with its prediction (44_driver.md R157). -/
theorem withPrediction_some {address : Nat} {perform : Bool → State → State} {s : State} {prediction : Bool}
    (h : s.variant.predict address = some prediction) :
    withPrediction address perform s = .next (perform prediction s) := by
  simp [withPrediction, h]

theorem withPrediction_none {address : Nat} {perform : Bool → State → State} {s : State}
    (h : s.variant.predict address = none) : withPrediction address perform s = .fault .noVariant := by
  simp [withPrediction, h]

/-- A prediction exists exactly when a variant is constructed. -/
theorem predict_isSome_iff (v : Variant) (address : Nat) :
    (v.predict address).isSome = true ↔ v ≠ .unconfigured := by
  cases v <;> simp [Variant.predict]

/-- Below `2^64` a total reads as itself (00_scope.md R11); above, the data is the free value (log 7). -/
theorem totalData_of_lt (overflow : Nat → Word) {n : Nat} (h : n < 2 ^ 64) :
    totalData overflow n = BitVec.ofNat 64 n := if_pos h

/-! ### Fetching -/

@[simp] theorem fetch_idle {s : State} (h : s.inputs = []) : fetch s = .idle := by
  simp [fetch, h]

@[simp] theorem fetch_hardwareReset {s : State} {rest : List HostInput} (h : s.inputs = .hardwareReset :: rest) :
    fetch s = .hardwareReset (s.withInputs rest) := by
  simp [fetch, h]

theorem fetch_command {s : State} {cw : Word} {rest : List HostInput} {i : Instr}
    (h : s.inputs = .command cw :: rest) (hd : decode cw = .command i) :
    fetch s = .command i (s.withInputs rest) := by
  simp [fetch, h, hd]

theorem fetch_illegal {s : State} {cw : Word} {rest : List HostInput} {cause : IllegalCause}
    (h : s.inputs = .command cw :: rest) (hd : decode cw = .illegal cause) :
    fetch s = .illegal cause (s.withInputs rest) := by
  simp [fetch, h, hd]

/-! ### History registers and counters -/

/-- SHIFTIN keeps a register below `2^w`, whatever it held (40_bitregister.md R103). -/
theorem shiftIn_lt (w value : Nat) (bit : Bool) : shiftIn w value bit < 2 ^ w :=
  Nat.mod_lt _ (Nat.two_pow_pos w)

/-- SHIFTIN as arithmetic (40_bitregister.md R101). -/
theorem shiftIn_eq (w value : Nat) (bit : Bool) : shiftIn w value bit = (2 * value + boolBit bit) % 2 ^ w := by
  have h : (value <<< 1) ||| boolBit bit = 2 * value + boolBit bit := by
    have hb : boolBit bit < 2 ^ 1 := by cases bit <;> decide
    rw [Nat.shiftLeft_eq, Nat.mul_comm, ← Nat.two_pow_add_eq_or_of_lt hb]
  rw [shiftIn, h]

theorem lookupIndex_lt (bits index : Nat) : lookupIndex bits index < 2 ^ bits :=
  Nat.mod_lt _ (Nat.two_pow_pos bits)

/-- An index already in range is the one TBL.LOOKUP selects (90_conflicts.md C2). -/
theorem lookupIndex_of_lt {bits index : Nat} (h : index < 2 ^ bits) : lookupIndex bits index = index :=
  Nat.mod_eq_of_lt h

theorem Gshare.index_lt (g : Gshare) (address : Nat) : g.index address < 2 ^ g.historyBits :=
  Nat.mod_lt _ (Nat.two_pow_pos _)

theorem Tournament.slot_lt (t : Tournament) (address : Nat) : t.slot address < 2 ^ t.pcIndexBits :=
  Nat.mod_lt _ (Nat.two_pow_pos _)

/-- A freshly initialised memory is canonical. -/
theorem MemoryOk.filled {α : Type} [DecidableEq α] (size : Nat) (init : α) : MemoryOk size (Memory.filled init) :=
  ⟨rfl, rfl⟩

/-- A write in range keeps a memory canonical. -/
theorem MemoryOk.write {α : Type} [DecidableEq α] {size : Nat} {m : Memory α} (h : MemoryOk size m) {i : Nat}
    (hi : i < size) (v : α) : MemoryOk size (m.write i v) :=
  ⟨m.wf_write h.canonical i v, m.within_write h.inside hi v⟩

/-- A table adjustment keeps the table canonical, whatever the index (41_counter_table.md R114). -/
theorem MemoryOk.tblAdjust {bits : Nat} {m : Memory Counter} (h : MemoryOk (2 ^ bits) m) (index : Nat) (taken : Bool) :
    MemoryOk (2 ^ bits) (tblAdjust bits m index taken) :=
  h.write (lookupIndex_lt bits index) _

end Sys2Proof.Machine
end

