-- ==== Sys2Proof/Laws/PerInstr.lean ====
section
/-! SUPPORT. The per-instruction family `EncodedFields`: the word of a well-formed command carries its opcode in bits
63 .. 60 and its operand bits below (30_encoding.md R71). -/

namespace Sys2Proof.Laws.EncodedFields

/-- The encoded word splits into the opcode and the operand bits. -/
def Statement (i : Instr) : Prop :=
  i.wellFormed = true → (encode i).toNat / 2 ^ 60 = i.opcode ∧ (encode i).toNat % 2 ^ 60 = i.operandBits

/-- Operand bits below the opcode, and an opcode of four bits, are read back from the word. -/
theorem split_word (i : Instr) (hop : i.opcode < 2 ^ 4) (hbits : i.operandBits < 2 ^ 60) :
    (encode i).toNat / 2 ^ 60 = i.opcode ∧ (encode i).toNat % 2 ^ 60 = i.operandBits := by
  have h : (encode i).toNat = i.opcode * 2 ^ 60 + i.operandBits := by
    rw [encode, BitVec.toNat_ofNat]
    exact Nat.mod_eq_of_lt (by omega)
  omega

theorem cfgGshare (wa : Nat) : Statement (.cfgGshare wa) := fun h =>
  split_word _ (opcode_lt _) (by
    simp only [Instr.wellFormed, widthFits_iff] at h
    simp only [Instr.operandBits]; omega)

theorem cfgTourn (wa wb wc : Nat) : Statement (.cfgTourn wa wb wc) := fun h =>
  split_word _ (opcode_lt _) (by
    simp only [Instr.wellFormed, Bool.and_eq_true, widthFits_iff] at h
    simp only [Instr.operandBits]; omega)

theorem predict (addr : Nat) : Statement (.predict addr) := fun h =>
  split_word _ (opcode_lt _) (by
    simp only [Instr.wellFormed, addrFits_iff] at h
    simp only [Instr.operandBits]; omega)

theorem update (addr : Nat) (outcome : Bool) : Statement (.update addr outcome) := fun h =>
  split_word _ (opcode_lt _) (by
    simp only [Instr.wellFormed, addrFits_iff] at h
    have := boolBit_le outcome
    simp only [Instr.operandBits]; omega)

theorem step (addr : Nat) (outcome : Bool) : Statement (.step addr outcome) := fun h =>
  split_word _ (opcode_lt _) (by
    simp only [Instr.wellFormed, addrFits_iff] at h
    have := boolBit_le outcome
    simp only [Instr.operandBits]; omega)

theorem finish : Statement .finish := fun _ => split_word _ (opcode_lt _) (by decide)

theorem rdTotal : Statement .rdTotal := fun _ => split_word _ (opcode_lt _) (by decide)

theorem rdMiss : Statement .rdMiss := fun _ => split_word _ (opcode_lt _) (by decide)

theorem rdStatus : Statement .rdStatus := fun _ => split_word _ (opcode_lt _) (by decide)

theorem rdConfig : Statement .rdConfig := fun _ => split_word _ (opcode_lt _) (by decide)

theorem abortCfg (info : Nat) : Statement (.abortCfg info) := fun h =>
  split_word _ (opcode_lt _) (by
    simp only [Instr.wellFormed, infoFits_iff] at h
    simp only [Instr.operandBits]; omega)

theorem abortRec (info : Nat) : Statement (.abortRec info) := fun h =>
  split_word _ (opcode_lt _) (by
    simp only [Instr.wellFormed, infoFits_iff] at h
    simp only [Instr.operandBits]; omega)

end Sys2Proof.Laws.EncodedFields
end

