-- ==== Sys2Proof/Laws/Step.lean ====
section
/-! SUPPORT. The inversion of `exec` and of `step`: everything a command, and everything one step, can do. -/

namespace Sys2Proof.Machine

/-- A register read RD.*. -/
def Reads (i : Instr) : Prop := i = .rdTotal ∨ i = .rdMiss ∨ i = .rdStatus ∨ i = .rdConfig

/-- Everything performing a command can lead to (44_driver.md R150 to R166). -/
inductive Performed (s : State) : Instr → State → Prop where
  | faulted {i : Instr} (hp : s.phase = .faulted) : Performed s i s.respondFaulted
  | error {i : Instr} (e : ErrKind) (info : BitVec 4) (hp : s.phase ≠ .faulted) (he : e ≠ .noError) :
      Performed s i (s.raise e info)
  | gshare (wa : Nat) (hp : s.phase = .uninitialized) (hw : WidthOk s.params.maxBits wa) :
      Performed s (.cfgGshare wa) ((s.construct (.gshare (Gshare.construct s.params wa))).respondOk 0)
  | tourn (wa wb wc : Nat) (hp : s.phase = .uninitialized) (ha : WidthOk s.params.maxBits wa)
      (hb : WidthOk s.params.maxBits wb) (hc : WidthOk s.params.maxBits wc) :
      Performed s (.cfgTourn wa wb wc) ((s.construct (.tourn (Tournament.construct s.params wa wb wc))).respondOk 0)
  | predict (addr : Nat) (prediction : Bool) (hp : s.phase = .ready)
      (hv : s.variant.predict addr = some prediction) :
      Performed s (.predict addr) (answerPrediction prediction s)
  | update (addr : Nat) (outcome prediction : Bool) (hp : s.phase = .ready)
      (hv : s.variant.predict addr = some prediction) :
      Performed s (.update addr outcome) (train addr outcome s)
  | step (addr : Nat) (outcome prediction : Bool) (hp : s.phase = .ready)
      (hv : s.variant.predict addr = some prediction) :
      Performed s (.step addr outcome) (performRecord addr outcome prediction s)
  | finish (hp : s.phase = .ready) : Performed s .finish (s.finish.respondOk 0)
  | read {i : Instr} (data : Word) (hp : s.phase ≠ .faulted) (hi : Reads i) : Performed s i (s.respondOk data)

/-- The frame performs the command's own rule, or answers an error. -/
theorem performed_of_framed {i : Instr} {s t : State} {legalIn : Phase → Bool} {perform : State → Result}
    (h : framed legalIn perform s = .next t)
    (own : s.phase ≠ .faulted → legalIn s.phase = true → perform s = .next t → Performed s i t) :
    Performed s i t := by
  rcases framed_cases legalIn perform s with ⟨hp, he⟩ | ⟨hp, hl, he⟩ | ⟨hp, hl, he⟩
  · rw [he] at h; cases h
    exact .faulted hp
  · exact own hp hl (he ▸ h)
  · rw [he] at h; cases h
    exact .error .phase _ hp (by decide)

/-- PREDICT, UPDATE and STEP perform with a prediction, or not at all. -/
theorem withPrediction_next {addr : Nat} {perform : Bool → State → State} {s t : State}
    (h : withPrediction addr perform s = .next t) :
    ∃ prediction, s.variant.predict addr = some prediction ∧ t = perform prediction s := by
  cases hv : s.variant.predict addr with
  | none => rw [withPrediction_none hv] at h; cases h
  | some prediction => rw [withPrediction_some hv] at h; cases h; exact ⟨prediction, rfl, rfl⟩

/-- The inversion of `exec`. -/
theorem performed_of_exec {i : Instr} {s t : State} (h : exec i s = .next t) : Performed s i t := by
  cases i with
  | cfgGshare wa =>
    refine performed_of_framed h fun hp hl hc => ?_
    rcases configure_cases [wa] (.gshare (Gshare.construct s.params wa)) s with ⟨cause, _, he⟩ | ⟨hw, he⟩
    · rw [he] at hc; cases hc; exact .error _ _ hp (by decide)
    · rw [he] at hc; cases hc
      exact .gshare wa ((inUninitialized_iff _).1 hl) ((widthsError_none_iff _ _).1 hw wa List.mem_cons_self)
  | cfgTourn wa wb wc =>
    refine performed_of_framed h fun hp hl hc => ?_
    rcases configure_cases [wa, wb, wc] (.tourn (Tournament.construct s.params wa wb wc)) s with
      ⟨cause, _, he⟩ | ⟨hw, he⟩
    · rw [he] at hc; cases hc; exact .error _ _ hp (by decide)
    · rw [he] at hc; cases hc
      have hw := (widthsError_none_iff _ _).1 hw
      exact .tourn wa wb wc ((inUninitialized_iff _).1 hl) (hw wa (by simp)) (hw wb (by simp)) (hw wc (by simp))
  | predict addr =>
    refine performed_of_framed h fun _ hl hc => ?_
    obtain ⟨prediction, hv, rfl⟩ := withPrediction_next hc
    exact .predict addr prediction ((inReady_iff _).1 hl) hv
  | update addr outcome =>
    refine performed_of_framed h fun _ hl hc => ?_
    obtain ⟨prediction, hv, rfl⟩ := withPrediction_next hc
    exact .update addr outcome prediction ((inReady_iff _).1 hl) hv
  | step addr outcome =>
    refine performed_of_framed h fun _ hl hc => ?_
    obtain ⟨prediction, hv, rfl⟩ := withPrediction_next hc
    exact .step addr outcome prediction ((inReady_iff _).1 hl) hv
  | finish =>
    refine performed_of_framed (perform := endRun) h fun _ hl hc => ?_
    cases hc
    exact .finish ((inReady_iff _).1 hl)
  | rdTotal =>
    refine performed_of_framed h fun hp _ hc => ?_
    cases hc
    exact .read _ hp (.inl rfl)
  | rdMiss =>
    refine performed_of_framed h fun hp _ hc => ?_
    cases hc
    exact .read _ hp (.inr (.inl rfl))
  | rdStatus =>
    refine performed_of_framed h fun hp _ hc => ?_
    cases hc
    exact .read _ hp (.inr (.inr (.inl rfl)))
  | rdConfig =>
    refine performed_of_framed h fun hp _ hc => ?_
    cases hc
    exact .read _ hp (.inr (.inr (.inr rfl)))
  | abortCfg info =>
    refine performed_of_framed h fun hp _ hc => ?_
    cases hc
    exact .error _ _ hp (by decide)
  | abortRec info =>
    refine performed_of_framed h fun hp _ hc => ?_
    cases hc
    exact .error _ _ hp (by decide)

/-- Everything one step can do (20_memory.md R58). -/
inductive Stepped (s : State) : State → Prop where
  | idle (h : s.inputs = []) : Stepped s s
  | hardwareReset (rest : List HostInput) (h : s.inputs = .hardwareReset :: rest) :
      Stepped s (s.withInputs rest).hardwareReset
  | illegal (cw : Word) (rest : List HostInput) (cause : IllegalCause) (h : s.inputs = .command cw :: rest)
      (hd : decode cw = .illegal cause) : Stepped s (performIllegal cause (s.withInputs rest))
  | command (cw : Word) (rest : List HostInput) (i : Instr) (t : State) (h : s.inputs = .command cw :: rest)
      (hd : decode cw = .command i) (ht : Performed (s.withInputs rest) i t) : Stepped s t

/-- The inversion of `step`. -/
theorem stepped_of_step {s t : State} (h : step s = .next t) : Stepped s t := by
  cases hin : s.inputs with
  | nil =>
    simp only [step, fetch_idle hin] at h
    cases h
    exact .idle hin
  | cons input rest =>
    cases input with
    | hardwareReset =>
      simp only [step, fetch_hardwareReset hin] at h
      cases h
      exact .hardwareReset rest hin
    | command cw =>
      cases hd : decode cw with
      | command i =>
        simp only [step, fetch_command hin hd] at h
        exact .command cw rest i t hin hd (performed_of_exec h)
      | illegal cause =>
        simp only [step, fetch_illegal hin hd] at h
        cases h
        exact .illegal cw rest cause hin hd

/-- The two ends of an illegal word (44_driver.md R150). -/
theorem performIllegal_cases (cause : IllegalCause) (s : State) :
    (s.phase = .faulted ∧ performIllegal cause s = s.respondFaulted) ∨
    (s.phase ≠ .faulted ∧ performIllegal cause s = s.raise .illegalCommand (illegalInfo cause)) := by
  by_cases hp : s.phase = .faulted
  · exact .inl ⟨hp, if_pos hp⟩
  · exact .inr ⟨hp, if_neg hp⟩

end Sys2Proof.Machine
end

