-- ==== Sys2Proof/Tests/Slice0.lean ====
section
/-! SUPPORT. The model's own tests, every expected value taken from spec/ (30_encoding.md, 44_driver.md,
95_test_vectors.md), and for each statement of Certificates/Slice0/Obligations.lean that has hypotheses a witness
that meets them. -/

namespace Sys2Proof.Tests

open Sys2Proof.Machine Sys2Proof.Machine.FrontEnd

/-! ### Helpers -/

/-- A Ready gshare block: width, GHR, the PHT cells that are not 1. -/
def gshareBlock (h ghr : Nat) (cells : List (Nat × Counter)) : State :=
  { State.reset with phase := .ready, variant := .gshare ⟨h, ghr, ⟨1, cells⟩⟩ }

/-- A Ready tournament:2:2:1 block: TGHR, the GPT, CPT and LPT cells that are not 1, the LHR registers that are
not 0. -/
def tournBlock (tghr : Nat) (gpt cpt : List (Nat × Counter)) (lhr : List (Nat × Nat)) (lpt : List (Nat × Counter)) :
    State :=
  { State.reset with
    phase := .ready
    variant := .tourn ⟨2, 2, 1, tghr, ⟨1, gpt⟩, ⟨1, cpt⟩, ⟨0, lhr⟩, ⟨1, lpt⟩⟩ }

/-- The response to one word presented to `s`. -/
def answerTo (s : State) (w : Word) : Option (Nat × Nat) :=
  (nextOf (step (s.present w))).bind fun t => t.response.map fun r => (r.status.toNat, r.data.toNat)

/-- The state after one word presented to `s`, without the response. -/
def after (s : State) (w : Word) : Option State :=
  (nextOf (step (s.present w))).map fun t => { t with response := none }

/-! ### Well-formedness: each check refuses an operand one too large -/

theorem test_wf_refuses_width : (Instr.cfgGshare 64).wellFormed = false := by decide
theorem test_wf_refuses_widths : (Instr.cfgTourn 64 1 1).wellFormed = false ∧
    (Instr.cfgTourn 1 64 1).wellFormed = false ∧ (Instr.cfgTourn 1 1 64).wellFormed = false := by decide
theorem test_wf_refuses_address : (Instr.predict 0x100000000).wellFormed = false ∧
    (Instr.update 0x100000000 true).wellFormed = false ∧
    (Instr.step 0x100000000 false).wellFormed = false := by decide
theorem test_wf_refuses_info : (Instr.abortCfg 16).wellFormed = false ∧
    (Instr.abortRec 16).wellFormed = false := by decide
theorem test_wf_accepts_largest : (Instr.cfgTourn 63 63 63).wellFormed = true ∧
    (Instr.step 0xFFFFFFFF true).wellFormed = true ∧ (Instr.abortCfg 15).wellFormed = true := by decide

/-! ### Decoding: words written out from R71 and R72 -/

theorem test_decode_cfgGshare :
    decode 0b0001000000000000000000000000000000000000000000000000000000001101 = .command (.cfgGshare 13) := by decide
theorem test_decode_cfgTourn :
    decode 0b0010000000000000000000000000000000000000000010100000101100001001 = .command (.cfgTourn 9 11 10) := by
  decide
theorem test_decode_predict :
    decode 0b0100000000000000000000000000000010000000000000000000000000000100 = .command (.predict 0x80000004) := by
  decide
theorem test_decode_update :
    decode 0b0101000000000000000000000000000100000000000000000000000000011100 = .command (.update 0x1C true) := by
  decide
theorem test_decode_step :
    decode 0b0110000000000000000000000000000000000000000000000000000000000100 = .command (.step 0x4 false) := by decide
theorem test_decode_finish : decode 0x7000000000000000 = .command .finish := by decide
theorem test_decode_reads : decode 0x8000000000000000 = .command .rdTotal ∧
    decode 0x8000000000000001 = .command .rdMiss ∧ decode 0x8000000000000002 = .command .rdStatus ∧
    decode 0x8000000000000003 = .command .rdConfig := by decide
theorem test_decode_aborts : decode 0xA0000000000000F1 = .command (.abortCfg 15) ∧
    decode 0xA000000000000012 = .command (.abortRec 1) := by decide
/-- R82: the reserved OP values. -/
theorem test_decode_reservedOp :
    ([0x0, 0x3, 0x9, 0xB, 0xC, 0xD, 0xE, 0xF].all fun op =>
      decode (BitVec.ofNat 64 (op * 2 ^ 60)) == .illegal .reservedOp) = true := by decide
/-- R83: each row's own pattern decodes to the row's command. -/
theorem test_decode_table :
    (opcodeTable.all fun row =>
      match decode row.pattern with
      | .command i => i.mnemonic == row.mnemonic
      | .illegal _ => false) = true := by decide
/-- 95_test_vectors.md T14 to T17b: a reserved bit or SEL out of range. -/
theorem test_decode_reservedBits :
    ([0x4000000100000004, 0x7000000000000001, 0x8000000000000004, 0xA000000000000003, 0x1000000000000040].all
      fun w => decode w == .illegal .reservedBits) = true := by decide
theorem test_decodeTableWord : decodeTableWord 64 0x2000000000010202 = some (.cfgTourn 2 2 1) ∧
    decodeTableWord 64 0 = none := by decide
/-- 30_encoding.md R74, R75: example words, encoded. -/
theorem test_encode : encode (.update 0x1C true) = 0x500000010000001C ∧
    encode (.cfgTourn 9 10 10) = 0x20000000000A0A09 ∧ encode (.abortCfg 1) = 0xA000000000000011 := by decide

/-! ### The core: 95_test_vectors.md sections 2.1 to 2.6 -/

/-- T1. -/
theorem test_shiftIn_T1 : [true, true, false, true, true].foldl (shiftIn 3) 0 = 3 := by decide
/-- T4. -/
theorem test_shiftIn_T4 : [true, false, true, true, false, false, true].foldl (shiftIn 4) 0 = 9 := by decide
/-- T3. -/
theorem test_shiftIn_T3 : [true, true].foldl (shiftIn 0) 0 = 0 := by decide
/-- T6. -/
theorem test_lookup_T6 : lookupIndex 2 0xFFFFFFFF = 3 ∧ lookupIndex 2 4 = 0 ∧ lookupIndex 2 5 = 1 := by decide
/-- T7, the rows of h = 13 and h = 34. -/
theorem test_index_T7 : (Gshare.mk 13 0x1555 ⟨1, []⟩).index 0x00400A3C = 8041 ∧
    (Gshare.mk 34 0x3FFFFFFFF ⟨1, []⟩).index 0xFFFFFFFF = 0x300000000 := by decide
/-- T10: the core at h = 0, its third record. -/
theorem test_degenerate_T10 : (Gshare.mk 0 0 ⟨1, [(0, 3)]⟩).predict 0x3 = true ∧
    (Gshare.mk 0 0 ⟨1, [(0, 3)]⟩).update 0x3 false = ⟨0, 0, ⟨1, [(0, 2)]⟩⟩ := by decide
/-- A write of the value construction wrote removes the entry. -/
theorem test_write_canonical : (Memory.mk (1 : Counter) [(2, 3), (5, 0)]).write 2 1 = ⟨1, [(5, 0)]⟩ ∧
    (Memory.mk (1 : Counter) [(2, 3), (5, 0)]).write 4 2 = ⟨1, [(2, 3), (4, 2), (5, 0)]⟩ := by decide

/-! ### Commands, one step each -/

/-- P1 command 1. -/
theorem test_cfgGshare_P1 : after State.reset 0x1000000000000002 = some (gshareBlock 2 0 []) := by decide
/-- T20: width 33 above MAX_BITS 32. -/
theorem test_cfgGshare_T20 : answerTo State.reset 0x1000000000000021 = some (1, 0x413) := by decide
/-- P3 command 1. -/
theorem test_cfgTourn_P3 : after State.reset 0x2000000000010202 = some (tournBlock 0 [] [] [] []) := by decide
/-- T21b: a zero width is reported before a width too large. -/
theorem test_cfgTourn_T21b : answerTo State.reset 0x2000000000000A21 = some (1, 0x313) := by decide
/-- P2, the state before command 8: index 7 holds 2. -/
theorem test_predict_P2 :
    answerTo (gshareBlock 3 0b011 [(1, 2), (4, 2), (5, 2), (7, 2)]) 0x400000000000001C = some (0, 1) := by decide
/-- 43_tournament.md R141's example. -/
theorem test_predict_R141 :
    answerTo (tournBlock 0b01 [(0, 2)] [] [(0, 0b01)] [(0, 2)]) 0x4000000000000011 = some (0, 1) := by decide
/-- 44_driver.md R156's example. -/
theorem test_update_R156 :
    after (gshareBlock 2 0 []) 0x5000000100000004 = some (gshareBlock 2 1 [(0, 2)]) := by decide
/-- 43_tournament.md R144's example (record 2 of P3), as an UPDATE. -/
theorem test_update_R144 :
    after (tournBlock 0b01 [(0, 2)] [] [(0, 0b01)] [(0, 2)]) 0x5000000000000011 =
      some (tournBlock 0b10 [(0, 2), (1, 0)] [(1, 2)] [(0, 0b01)] []) := by decide
/-- P3 command 11: the votes differ and the local one is right, so the chooser moves down. -/
theorem test_step_P3 :
    after (tournBlock 0b00 [(0, 2), (1, 0), (2, 2)] [(1, 2), (2, 2)] [(0, 0b10)] [(0, 0), (1, 2), (3, 2)])
        0x6000000000000010 =
      some { tournBlock 0b00 [(1, 0), (2, 2)] [(0, 0), (1, 2), (2, 2)] [] [(0, 0), (1, 2), (2, 0), (3, 2)] with
        total := 1 } := by decide
/-- 44_driver.md R158's example: a misprediction is counted. -/
theorem test_step_R158 :
    after (gshareBlock 2 0 []) 0x6000000100000004 =
      some { gshareBlock 2 1 [(0, 2)] with total := 1, mispred := 1 } := by decide
/-- P1 command 6. -/
theorem test_finish_P1 :
    after (gshareBlock 2 2 [(1, 0)]) 0x7000000000000000 =
      some { gshareBlock 2 2 [(1, 0)] with phase := .finished } := by decide
/-- T19: FINISH in phase 0. -/
theorem test_finish_T19 : answerTo State.reset 0x7000000000000000 = some (4, 0x043) := by decide
/-- P1 commands 7 and 8. -/
theorem test_reads_P1 :
    answerTo { gshareBlock 2 2 [] with total := 4, mispred := 1 } 0x8000000000000000 = some (0, 4) ∧
    answerTo { gshareBlock 2 2 [] with total := 4, mispred := 1 } 0x8000000000000001 = some (0, 1) := by decide
/-- 44_driver.md R163's example. -/
theorem test_rdStatus_R163 : answerTo (gshareBlock 2 0 []) 0x8000000000000002 = some (0, 0x5) := by decide
/-- P3 command 17. -/
theorem test_rdConfig_P3 : answerTo (tournBlock 0 [] [] [] []) 0x8000000000000003 = some (0, 0x010202) := by decide
/-- T23b: ABORT.CFG before anything. -/
theorem test_abortCfg_T23b : answerTo State.reset 0xA000000000000011 = some (1, 0x113) := by decide
/-- T23: ABORT.REC after one record. -/
theorem test_abortRec_T23 :
    answerTo { gshareBlock 2 1 [(0, 2)] with total := 1, mispred := 1 } 0xA000000000000012 = some (2, 0x127) := by
  decide
/-- T11 and T14: illegal words. -/
theorem test_illegal_T11_T14 : answerTo State.reset 0x0000000000000000 = some (3, 0x133) ∧
    answerTo State.reset 0x4000000100000004 = some (3, 0x233) := by decide
/-- P4 command 3 and T23b: a faulted block answers status 5 to a legal and to an illegal word. -/
theorem test_faulted_P4 :
    answerTo (State.reset.raise .configuration 3) 0x1000000000000002 = some (5, 0x313) ∧
    answerTo (State.reset.raise .configuration 3) 0xFFFFFFFFFFFFFFFF = some (5, 0x313) := by decide
/-- P5 command 7: a second configuration. -/
theorem test_phaseError_P5 : answerTo (gshareBlock 2 0 []) 0x1000000000000003 = some (4, 0x147) := by decide
/-- 70_reset_and_hazards.md R200: reset leaves phase 3. -/
theorem test_hardwareReset :
    nextOf (step ((State.reset.raise .configuration 3).withInputs [.hardwareReset])) = some State.reset := by decide

/-! ### The text front end: 95_test_vectors.md section 2.9 -/

/-- T25. -/
theorem test_configString_T25 : configCommand "gshare:013".toList = .cfgGshare 13 ∧
    configCommand "tournament:9:10:10".toList = .cfgTourn 9 10 10 ∧
    configCommand "gshare:0".toList = .cfgGshare 0 ∧ configCommand "gshare:64".toList = .abortCfg 4 ∧
    configCommand "gshare:-3".toList = .abortCfg 3 ∧ configCommand "gshare:".toList = .abortCfg 3 ∧
    configCommand "gshare".toList = .abortCfg 2 ∧ configCommand "tournament:9:10".toList = .abortCfg 2 ∧
    configCommand "Gshare:4".toList = .abortCfg 1 ∧ configCommand "".toList = .abortCfg 1 := by decide
/-- 30_encoding.md R92. -/
theorem test_configString_R92 : configCommand "tournament:64:0:1".toList = .abortCfg 3 := by decide
/-- T26. -/
theorem test_traceLine_T26 : parseLine "4 0".toList = .record 0x4 false ∧
    parseLine "0X1c\t1".toList = .record 0x1C true ∧ parseLine "ffffffff 1".toList = .record 0xFFFFFFFF true ∧
    parseLine "100000000 1".toList = .malformed 2 ∧ parseLine "4 2".toList = .malformed 1 ∧
    parseLine "4".toList = .malformed 1 ∧ parseLine "4 1 7".toList = .malformed 1 ∧
    parseLine "g4 0".toList = .malformed 1 ∧ parseLine "".toList = .malformed 1 ∧
    parseLine "0x 1".toList = .malformed 1 := by decide
/-- 30_encoding.md R92 step 1: the three widths in their order. -/
theorem test_configString_order : configCommand "tournament:9:10:11".toList = .cfgTourn 9 10 11 := by decide
/-- 30_encoding.md R90: a final line feed starts no record, another empty line is one. -/
theorem test_traceLines_R90 : traceLines "a\n\nb".toList = ["a".toList, [], "b".toList] ∧
    traceLines "a\n\n".toList = ["a".toList, []] ∧ traceLines "\n".toList = [[]] := by decide
/-- 30_encoding.md R90: a final line feed starts no record; R92 step 3. -/
theorem test_trace_P1_end : traceCommands (traceLines "4 1\n4 0\n".toList) =
    [.step 0x4 true, .step 0x4 false, .finish, .rdTotal, .rdMiss] := by decide
/-- 44_driver.md R165: P1's rate, and none for an empty trace. -/
theorem test_missRate : missRate 4 1 = some (1 / 4) ∧ missRate 0 0 = none := by norm_num [missRate]

/-! ### Witnesses: the hypotheses of each statement are met, clause by clause -/

/-- A Ready gshare block meets the invariant. -/
theorem gshareBlock_inv : Inv (gshareBlock 2 1 [(0, 2)]) :=
  { params_wf := by decide
    err_iff := by decide
    info_zero := by decide
    mispred_le := by decide
    not_yet := by decide
    configured := by decide
    no_records := by decide
    variant_ok := ⟨by decide, by decide, by decide, by decide⟩ }

/-- The tournament storage after record 1 of P3 is of its widths. -/
theorem tournBlock_ok : TournamentOk ⟨2, 2, 1, 1, ⟨1, [(0, 2)]⟩, ⟨1, []⟩, ⟨0, [(0, 1)]⟩, ⟨1, [(0, 2)]⟩⟩ :=
  { tghr_lt := by decide
    gpt_ok := ⟨by decide, by decide⟩
    cpt_ok := ⟨by decide, by decide⟩
    lpt_ok := ⟨by decide, by decide⟩
    lhr_ok := ⟨by decide, by decide⟩
    lhr_lt := fun slot => by
      show (if slot = 0 then 1 else 0) < 4
      split <;> decide }

theorem witness_DecodeOfEncode : (Instr.step 0xFFFFFFFF true).wellFormed = true ∧
    (Instr.cfgTourn 63 0 63).wellFormed = true ∧ (Instr.abortRec 15).wellFormed = true := by decide

theorem witness_EncodeOfDecode : decode 0x60000001FFFFFFFF = .command (.step 0xFFFFFFFF true) := by decide

theorem witness_DecodeAgreesWithTable : decode 0xA0000000000000F2 = .command (.abortRec 15) ∧
    (opcodeTable.any fun row => row.covers 0xA0000000000000F2) = true := by decide

/-- One word per case of R82 that is illegal, its neighbour that is not, and a state it can be presented to. -/
theorem witness_IllegalWordsRaise : (0xB000000000000000 : Word).toNat / 2 ^ 60 = 0xB ∧
    (0x1000000000000040 : Word).toNat / 2 ^ 6 % 2 ^ 54 ≠ 0 ∧ (0x2000000000400000 : Word).toNat / 2 ^ 22 % 2 ^ 38 ≠ 0 ∧
    (0x2000000000004000 : Word).toNat / 2 ^ 14 % 2 ^ 2 ≠ 0 ∧ (0x2000000000000080 : Word).toNat / 2 ^ 6 % 2 ^ 2 ≠ 0 ∧
    (0x4000000100000000 : Word).toNat / 2 ^ 32 % 2 ^ 28 ≠ 0 ∧ (0x6000000200000000 : Word).toNat / 2 ^ 33 % 2 ^ 27 ≠ 0 ∧
    (0x7000000000000001 : Word).toNat % 2 ^ 60 ≠ 0 ∧ 3 < (0x8000000000000004 : Word).toNat % 2 ^ 4 ∧
    (0xA000000000000000 : Word).toNat % 2 ^ 4 ≠ 1 ∧ decode 0x100000000000003F = .command (.cfgGshare 63) ∧
    (State.reset.present 0xB000000000000000).inputs = [.command 0xB000000000000000] ∧
    (State.reset.present 0xB000000000000000).phase ≠ .faulted := by decide

theorem witness_StepRunsDecodedCommand :
    (State.reset.present 0x1000000000000002).inputs = .command 0x1000000000000002 :: [] ∧
    decode 0x1000000000000002 = .command (.cfgGshare 2) := by decide

theorem witness_NothingPresentedNothingHappens : State.reset.inputs = [] := by decide

theorem witness_IllegalWordErrorEntry :
    (State.reset.present 0x0).inputs = .command 0x0 :: [] ∧ decode 0x0 = .illegal .reservedOp ∧
    decode 0x7000000000000001 = .illegal .reservedBits ∧ (State.reset.present 0x0).phase ≠ .faulted := by decide

theorem witness_HardwareResetStep :
    ((gshareBlock 2 1 []).withInputs [.hardwareReset]).inputs = .hardwareReset :: [] := by decide

/-- The least and the largest width. -/
theorem witness_CfgGshareConstructs : State.reset.phase = .uninitialized ∧ 1 ≤ 32 ∧
    32 ≤ State.reset.params.maxBits ∧ 1 ≤ State.reset.params.maxBits := by decide

theorem witness_CfgGshareRejects : State.reset.phase = .uninitialized ∧ State.reset.params.maxBits < 33 := by decide

theorem witness_CfgTournConstructs : State.reset.phase = .uninitialized ∧ (∀ w ∈ [1, 9, 32],
    1 ≤ w ∧ w ≤ State.reset.params.maxBits) := by decide

theorem witness_CfgTournRejects : State.reset.phase = .uninitialized ∧ State.reset.params.maxBits < 33 ∧
    (33 = 0 ∨ 1 = 0 ∨ 0 = 0) := by decide

theorem witness_NineTenTenSizes : State.reset.phase = .uninitialized ∧ 10 ≤ State.reset.params.maxBits := by decide

theorem witness_TableAdjustChangesOneCounter : (Memory.mk (1 : Counter) [(0, 2), (3, 0)]).wf = true := by decide

theorem witness_PredictGshare : (gshareBlock 2 1 []).phase = .ready ∧
    (gshareBlock 2 1 []).variant = .gshare ⟨2, 1, ⟨1, []⟩⟩ := by decide

theorem witness_PredictTournament : (tournBlock 1 [(0, 2)] [] [(0, 1)] [(0, 2)]).phase = .ready ∧
    (1 : Nat) < 2 ^ 2 ∧ (Memory.mk 0 [(0, 1)]).read (0x10 % 2 ^ 1) < 2 ^ 2 := by decide

theorem witness_UpdateGshare : (gshareBlock 2 1 [(0, 2)]).phase = .ready ∧
    (gshareBlock 2 1 [(0, 2)]).variant = .gshare ⟨2, 1, ⟨1, [(0, 2)]⟩⟩ ∧
    (Memory.mk (1 : Counter) [(0, 2)]).wf = true := by decide

theorem witness_UpdateTournament : ∃ (s : State) (t : Tournament),
    s.phase = .ready ∧ s.variant = .tourn t ∧ TournamentOk t :=
  ⟨tournBlock 1 [(0, 2)] [] [(0, 1)] [(0, 2)], _, rfl, rfl, tournBlock_ok⟩

/-- Both sides of the chooser's test: votes that agree, and votes that differ (records 1 and 2 of P3). -/
theorem witness_UpdateTournament_votes :
    (Tournament.construct State.reset.params 2 2 1).globalVote =
      (Tournament.construct State.reset.params 2 2 1).localVote 0x10 ∧
    (Tournament.mk 2 2 1 1 ⟨1, [(0, 2)]⟩ ⟨1, []⟩ ⟨0, [(0, 1)]⟩ ⟨1, [(0, 2)]⟩).globalVote ≠
      (Tournament.mk 2 2 1 1 ⟨1, [(0, 2)]⟩ ⟨1, []⟩ ⟨0, [(0, 1)]⟩ ⟨1, [(0, 2)]⟩).localVote 0x11 := by decide

theorem witness_StepPerformsRecord : (gshareBlock 2 0 []).phase = .ready ∧
    (gshareBlock 2 0 []).variant.predict 0x4 = some false ∧
    (tournBlock 1 [(0, 2)] [] [(0, 1)] [(0, 2)]).variant.predict 0x11 = some true := by decide

theorem witness_StepIsPredictThenUpdate : (gshareBlock 2 0 []).phase = .ready ∧
    (gshareBlock 2 0 []).variant ≠ .unconfigured := by decide

theorem witness_PredictorStateIgnoresPredicts : (gshareBlock 2 0 []).phase = .ready ∧
    (gshareBlock 2 0 []).variant ≠ .unconfigured ∧
    ∀ i ∈ [Instr.predict 0x1, .update 0x1 true, .step 0x2 false],
      (∃ a, i = .predict a) ∨ (∃ a o, i = .update a o) ∨ (∃ a o, i = .step a o) :=
  ⟨by decide, by decide, by simp⟩

theorem witness_FinishEndsRun : (gshareBlock 2 0 []).phase = .ready := by decide

/-- Below and at the boundary of the totals' width, in phases 0, 1 and 2. -/
theorem witness_ReadTotals : State.reset.phase ≠ .faulted ∧ (gshareBlock 2 0 []).phase ≠ .faulted ∧
    ({ gshareBlock 2 0 [] with phase := .finished, total := 2 ^ 64 } : State).phase ≠ .faulted ∧
    ({ gshareBlock 2 0 [] with total := 2 ^ 64 - 1 } : State).total < 2 ^ 64 := by decide

theorem witness_ReadStatus : (gshareBlock 2 1 [(0, 2)]).phase ≠ .faulted ∧ Inv (gshareBlock 2 1 [(0, 2)]) :=
  ⟨by decide, gshareBlock_inv⟩

theorem witness_ReadConfig : (gshareBlock 63 0 []).phase ≠ .faulted ∧
    (gshareBlock 63 0 []).variant = .gshare ⟨63, 0, ⟨1, []⟩⟩ ∧ 63 < 64 ∧
    (tournBlock 0 [] [] [] []).phase ≠ .faulted ∧ State.reset.variant = .unconfigured := by decide

theorem witness_AbortRecordsError : State.reset.phase ≠ .faulted ∧ 15 < 2 ^ 4 := by decide

theorem witness_PhaseErrorEntry : (gshareBlock 2 0 []).phase ≠ .faulted ∧
    (gshareBlock 2 0 []).phase ≠ .uninitialized ∧ State.reset.phase ≠ .faulted ∧ State.reset.phase ≠ .ready ∧
    ({ gshareBlock 2 0 [] with phase := .finished } : State).phase ≠ .ready := by decide

theorem witness_FaultedAnswersStatusFive : (State.reset.raise .configuration 3).phase = .faulted ∧
    ((State.reset.raise .configuration 3).present 0x0).inputs = .command 0x0 :: [] := by decide

theorem witness_ErrorsArePrecise : ∃ s t : State, step s = .next t ∧ s.phase ≠ .faulted ∧ t.phase = .faulted :=
  ⟨State.reset.present 0x7000000000000000, _, rfl, by decide, by decide⟩

/-- A state that meets the invariant, with a command presented. -/
theorem presented_inv (w : Word) : Inv ((gshareBlock 2 1 [(0, 2)]).present w) :=
  { gshareBlock_inv with }

theorem witness_ErrorRecordIsSticky : ∃ s t : State, Inv s ∧ step s = .next t ∧
    s.inputs.head? ≠ some .hardwareReset ∧ t.phase ≠ .faulted :=
  ⟨(gshareBlock 2 1 [(0, 2)]).present 0x8000000000000002, _, presented_inv _, rfl, by decide, by decide⟩

theorem witness_PhaseTransitions : ∃ s t : State, step s = .next t ∧ s.inputs.head? ≠ some .hardwareReset ∧
    s.phase = .ready ∧ t.phase = .finished :=
  ⟨(gshareBlock 2 1 []).present 0x7000000000000000, _, rfl, by decide, by decide, by decide⟩

theorem witness_ConfigurationIsImmutable : ∃ (s t : State) (g : Gshare), Inv s ∧ step s = .next t ∧
    s.inputs.head? ≠ some .hardwareReset ∧ s.variant = .gshare g :=
  ⟨(gshareBlock 2 1 [(0, 2)]).present 0x6000000100000004, _, _, presented_inv _, rfl, by decide, rfl⟩

theorem witness_ConfigurationIsImmutable_construct : ∃ t : State,
    step (State.reset.present 0x2000000000010202) = .next t ∧ t.variant ≠ .unconfigured :=
  ⟨_, rfl, by decide⟩

theorem witness_TotalsChangeOnlyByStep : ∃ s t : State, step s = .next t ∧
    s.inputs.head? ≠ some .hardwareReset ∧ t.total ≠ s.total ∧ s.mispred ≤ s.total :=
  ⟨(gshareBlock 2 1 [(0, 2)]).present 0x6000000100000004, _, rfl, by decide, by decide, by decide⟩

theorem witness_ParametersAreFixed : ∃ s t : State, step s = .next t ∧ s.inputs ≠ [] :=
  ⟨(gshareBlock 2 1 [(0, 2)]).present 0x6000000100000004, _, rfl, by decide⟩

/-- Record 2 of P3: the chooser moves. -/
theorem witness_ChooserMovesOnlyOnDisagreement : ∃ (s t : State) (u u' : Tournament), step s = .next t ∧
    s.variant = .tourn u ∧ t.variant = .tourn u' ∧ s.inputs.head? ≠ some .hardwareReset ∧
    s.phase ≠ .uninitialized ∧ u'.cpt ≠ u.cpt :=
  ⟨(tournBlock 1 [(0, 2)] [] [(0, 1)] [(0, 2)]).present 0x6000000000000011, _, _, _, rfl, rfl, rfl, by decide,
    by decide, by decide⟩

theorem witness_NotTakenTraceKeepsChooser : State.reset.params.initCtr.toNat ≤ 1 := by decide

theorem witness_StepKeepsInvariant : ∃ s t : State, Inv s ∧ step s = .next t ∧ t ≠ s :=
  ⟨(gshareBlock 2 1 [(0, 2)]).present 0x6000000100000004, _, presented_inv _, rfl, by decide⟩

theorem witness_StepKeepsPortInvariant : ∃ s t : State, PortInv s ∧ step s = .next t ∧ t.phase = .faulted :=
  ⟨(gshareBlock 2 1 []).present 0x0, _,
    ⟨fun _ r h => by simp [gshareBlock, State.present, State.withInputs, State.reset] at h,
      fun h => by simp [gshareBlock, State.present, State.withInputs] at h⟩, rfl, by decide⟩

theorem witness_EveryCommandCompletes : ∃ s : State, Inv s ∧ s.phase = .ready :=
  ⟨gshareBlock 2 1 [(0, 2)], gshareBlock_inv, by decide⟩

theorem witness_FrameOfReadsAndReports : ∃ t, exec (.predict 0x4) (gshareBlock 2 1 []) = .next t ∧
    t.phase = (gshareBlock 2 1 []).phase :=
  ⟨_, rfl, by decide⟩

theorem witness_FrameOfConfiguration : ∃ t u, exec (.cfgGshare 2) State.reset = .next t ∧ t.phase = .ready ∧
    exec (.cfgTourn 0 1 1) State.reset = .next u ∧ u.phase ≠ .ready :=
  ⟨_, _, rfl, by decide, rfl, by decide⟩

theorem witness_FrameOfGshareTraining : ∃ (t : State) (g : Gshare),
    (gshareBlock 2 1 []).variant = .gshare g ∧ exec (.step 0x4 true) (gshareBlock 2 1 []) = .next t ∧
    t.phase ≠ .faulted :=
  ⟨_, _, rfl, rfl, by decide⟩

theorem witness_FrameOfTournamentTraining : ∃ (t : State) (u : Tournament),
    (tournBlock 1 [(0, 2)] [] [(0, 1)] [(0, 2)]).variant = .tourn u ∧
    exec (.update 0x11 false) (tournBlock 1 [(0, 2)] [] [(0, 1)] [(0, 2)]) = .next t ∧ t.phase ≠ .faulted :=
  ⟨_, _, rfl, rfl, by decide⟩

theorem witness_LocalHistoryHoldsSlotOutcomes : 1 < 2 ^ 1 := by decide

theorem witness_GshareIndexInRange : (Gshare.mk 2 3 ⟨1, []⟩).ghr < 2 ^ (Gshare.mk 2 3 ⟨1, []⟩).historyBits ∧
    (Gshare.mk 0 0 ⟨1, []⟩).ghr < 2 ^ (Gshare.mk 0 0 ⟨1, []⟩).historyBits := by decide

theorem witness_AliasedAddressesAgree :
    (∃ g, (gshareBlock 2 1 []).variant = .gshare g ∧ 0x4 % 2 ^ g.historyBits = 0x10 % 2 ^ g.historyBits) ∧
    (∃ t, (tournBlock 1 [] [] [] []).variant = .tourn t ∧ 0x11 % 2 ^ t.pcIndexBits = 0x13 % 2 ^ t.pcIndexBits) :=
  ⟨⟨_, rfl, by decide⟩, ⟨_, rfl, by decide⟩⟩

theorem witness_ConfigurationStringOutcome : State.reset.phase = .uninitialized ∧ State.reset.params.wf := by decide

/-- Strings of every cause, and valid ones at the ends of the widths' range. -/
theorem witness_ConfigurationStringOutcome_causes : configCause 32 "bimodal:4".toList = some 1 ∧
    configCause 32 "gshare:1:2".toList = some 2 ∧ configCause 32 "tournament:64:0:1".toList = some 3 ∧
    configCause 32 "gshare:33".toList = some 4 ∧ configCause 32 "gshare:32".toList = none ∧
    configCause 32 "tournament:1:32:007".toList = none := by decide

/-- Texts of R88's two forms, their widths at the ends of a 6-bit field. -/
theorem witness_ConfigurationStringOutcome_forms :
    "gshare:63".toList = "gshare:".toList ++ "63".toList ∧ decimal "63".toList = some 63 ∧
    "tournament:63:0:07".toList = "tournament:".toList ++ "63".toList ++ ':' :: "0".toList ++ ':' :: "07".toList ∧
    decimal "0".toList = some 0 ∧ decimal "07".toList = some 7 := by decide

/-- Lines of each clause: the widest address that fits, the first that does not, and no record. -/
theorem witness_TraceLineForm : RecordForm "0xffffffff 1".toList 0xFFFFFFFF true ∧
    RecordForm "100000000\t0 \r".toList 0x100000000 false ∧ parseLine "4".toList = .malformed 1 :=
  ⟨⟨"0x".toList, "ffffffff".toList, [' '], [], [],
      by decide, by decide, by decide, by decide, by simp, by simp, by decide⟩,
    ⟨[], "100000000".toList, ['\t'], [' '], ['\r'],
      by decide, by decide, by decide, by decide, by simp, by simp, by decide⟩, by decide⟩

theorem witness_TraceCommandsStopAtMalformed :
    (∀ r ∈ [("4 0".toList, 0x4, false), ("0x4 1".toList, 0x4, true)], parseLine r.1 = .record r.2.1 r.2.2) ∧
    parseLine "4 2".toList = .malformed 1 := by decide

theorem witness_FrontEndRun : State.reset.phase = .uninitialized ∧ State.reset.params.wf ∧ State.reset.inputs = [] := by
  decide

/-- P1's totals in a state that meets the invariant, and an empty trace. -/
theorem witness_MissRateIsQuotient :
    Inv { gshareBlock 2 1 [(0, 2)] with total := 4, mispred := 1 } ∧ State.reset.total = 0 :=
  ⟨{ gshareBlock_inv with mispred_le := by decide, no_records := by decide }, by decide⟩

end Sys2Proof.Tests
end

section
/-! Proofs of the statements of 10_state.md: the error record, the phase, the two totals and the registers at reset.
Each whole-machine rule is first said of one performed command, by the inversion `Performed`, and then lifted to a step
by the inversion `Stepped`. -/

namespace Sys2Proof.Machine

/-! ### Illegal words -/

/-- An illegal word has only the two outcomes that every command shares, so it is performed like any command `i`. -/
theorem performed_performIllegal (cause : IllegalCause) (s : State) (i : Instr) :
    Performed s i (performIllegal cause s) := by
  rcases performIllegal_cases cause s with ⟨hp, he⟩ | ⟨hp, he⟩ <;> rw [he]
  · exact .faulted hp
  · exact .error .illegalCommand (illegalInfo cause) hp (by decide)

@[simp] theorem performIllegal_phase (cause : IllegalCause) (s : State) :
    (performIllegal cause s).phase = .faulted := by
  rcases performIllegal_cases cause s with ⟨hp, he⟩ | ⟨-, he⟩ <;> rw [he]
  · exact hp
  · rfl

@[simp] theorem performIllegal_total (cause : IllegalCause) (s : State) :
    (performIllegal cause s).total = s.total := by
  rcases performIllegal_cases cause s with ⟨-, he⟩ | ⟨-, he⟩ <;> rw [he] <;> rfl

@[simp] theorem performIllegal_mispred (cause : IllegalCause) (s : State) :
    (performIllegal cause s).mispred = s.mispred := by
  rcases performIllegal_cases cause s with ⟨-, he⟩ | ⟨-, he⟩ <;> rw [he] <;> rfl

/-! ### The error record (10_state.md R29) -/

/-- A command keeps ERR and ERRINFO and stays on its side of phase 3, or enters phase 3 with an error recorded. -/
theorem Performed.errorRecord_cases {s t : State} {i : Instr} (h : Performed s i t) :
    (t.err = s.err ∧ t.errInfo = s.errInfo ∧ (t.phase = .faulted ↔ s.phase = .faulted)) ∨
    (s.phase ≠ .faulted ∧ t.phase = .faulted ∧ t.err ≠ .noError) := by
  cases h with
  | error e info hp he => exact .inr ⟨hp, rfl, he⟩
  | faulted => exact .inl ⟨rfl, rfl, .rfl⟩
  | gshare wa hp | tourn wa wb wc hp => exact .inl ⟨rfl, rfl, by simp [hp]⟩
  | finish hp => exact .inl ⟨rfl, rfl, by simp [hp]⟩
  | predict | update | step | read => exact .inl ⟨rfl, rfl, .rfl⟩

/-- The same choice for every step but a hardware reset. -/
theorem errorRecord_cases_of_step {s t : State} (h : step s = .next t)
    (hr : s.inputs.head? ≠ some .hardwareReset) :
    (t.err = s.err ∧ t.errInfo = s.errInfo ∧ (t.phase = .faulted ↔ s.phase = .faulted)) ∨
    (s.phase ≠ .faulted ∧ t.phase = .faulted ∧ t.err ≠ .noError) := by
  cases stepped_of_step h with
  | idle => exact .inl ⟨rfl, rfl, .rfl⟩
  | hardwareReset rest hin => simp [hin] at hr
  | illegal cw rest cause => exact (performed_performIllegal cause (s.withInputs rest) .finish).errorRecord_cases
  | command cw rest i t hin hd ht => exact ht.errorRecord_cases

/-- Settles O33: a step that keeps the record keeps the side of phase 3 and so `Inv.err_iff`; the only other step
enters phase 3 with ERR non-zero. -/
theorem errorRecordIsSticky : Obligations.ErrorRecordIsSticky := by
  intro s t hs h hr
  rcases errorRecord_cases_of_step h hr with ⟨herr, hinfo, hphase⟩ | ⟨hp, ht, he⟩
  · exact ⟨by rw [herr, hs.err_iff, ne_eq, ne_eq, hphase], fun _ => ⟨herr, hinfo⟩, fun _ => ⟨herr, hinfo⟩⟩
  · exact ⟨iff_of_false he (absurd ht), fun hf => absurd hf hp, fun hn => absurd ht hn⟩

/-- The hypotheses of O33's clause on phase 3 are met: a faulted state that meets the invariant takes a step. -/
theorem errorRecordIsSticky_witness_faulted : ∃ s t : State, Inv s ∧ step s = .next t ∧
    s.inputs.head? ≠ some .hardwareReset ∧ s.phase = .faulted :=
  ⟨(State.reset.raise .configuration zeroWidthInfo).present 0x8000000000000002, _,
    { params_wf := by decide, err_iff := by decide, info_zero := by decide, mispred_le := by decide,
      not_yet := by decide, configured := by decide, no_records := by decide, variant_ok := trivial },
    rfl, by decide, rfl⟩

/-! ### The phase (10_state.md R27) -/

/-- The phases a command can lead to, and which command moves it. -/
theorem Performed.phase_cases {s t : State} {i : Instr} (h : Performed s i t) :
    t.phase = s.phase ∨
    (s.phase = .uninitialized ∧ t.phase = .ready ∧
      ((∃ wa, i = .cfgGshare wa) ∨ (∃ wa wb wc, i = .cfgTourn wa wb wc))) ∨
    (s.phase = .ready ∧ t.phase = .finished ∧ i = .finish) ∨
    (s.phase ≠ .faulted ∧ t.phase = .faulted) := by
  cases h with
  | gshare wa hp => exact .inr (.inl ⟨hp, rfl, .inl ⟨wa, rfl⟩⟩)
  | tourn wa wb wc hp => exact .inr (.inl ⟨hp, rfl, .inr ⟨wa, wb, wc, rfl⟩⟩)
  | finish hp => exact .inr (.inr (.inl ⟨hp, rfl, rfl⟩))
  | error e info hp => exact .inr (.inr (.inr ⟨hp, rfl⟩))
  | faulted | predict | update | step | read => exact .inl rfl

/-- Settles O34: a legal word moves the phase as its command does, an illegal one leaves the block in phase 3. -/
theorem phaseTransitions : Obligations.PhaseTransitions := by
  intro s t h hr
  cases stepped_of_step h with
  | idle => exact .inl rfl
  | hardwareReset rest hin => simp [hin] at hr
  | illegal cw rest cause =>
    by_cases hp : s.phase = .faulted
    · exact .inl ((performIllegal_phase cause _).trans hp.symm)
    · exact .inr (.inr (.inr ⟨hp, performIllegal_phase cause _⟩))
  | command cw rest i t hin hd ht =>
    have hw : s.inputs.head? = some (.command cw) := by rw [hin]; rfl
    rcases ht.phase_cases with hk | ⟨hp, hq, hi⟩ | ⟨hp, hq, rfl⟩ | herr
    · exact .inl hk
    · exact .inr (.inl ⟨hp, hq, cw, i, hw, hd, hi⟩)
    · exact .inr (.inr (.inl ⟨hp, hq, cw, hw, hd⟩))
    · exact .inr (.inr (.inr herr))

/-! ### The totals (10_state.md R30) -/

theorem count_mispred_cases (s : State) (miss : Bool) :
    (s.count miss).mispred = s.mispred ∨ (s.count miss).mispred = s.mispred + 1 := by
  cases miss
  · exact .inl rfl
  · exact .inr rfl

/-- A command keeps both totals, or is a STEP in phase 1 that counts its record. -/
theorem Performed.totals_cases {s t : State} {i : Instr} (h : Performed s i t) :
    (t.total = s.total ∧ t.mispred = s.mispred) ∨
    (s.phase = .ready ∧ (∃ a o, i = .step a o) ∧
      t.total = s.total + 1 ∧ (t.mispred = s.mispred ∨ t.mispred = s.mispred + 1)) := by
  cases h with
  | step addr outcome prediction hp =>
    exact .inr ⟨hp, ⟨addr, outcome, rfl⟩, rfl, count_mispred_cases s (mispredicted prediction outcome)⟩
  | faulted | error | gshare | tourn | predict | update | finish | read => exact .inl ⟨rfl, rfl⟩

/-- A step but a hardware reset keeps both totals, or performs a STEP in phase 1 that counts its record. -/
theorem totals_cases_of_step {s t : State} (h : step s = .next t) (hr : s.inputs.head? ≠ some .hardwareReset) :
    (t.total = s.total ∧ t.mispred = s.mispred) ∨
    (s.phase = .ready ∧ (∃ w a o, s.inputs.head? = some (.command w) ∧ decode w = .command (.step a o)) ∧
      t.total = s.total + 1 ∧ (t.mispred = s.mispred ∨ t.mispred = s.mispred + 1)) := by
  cases stepped_of_step h with
  | idle => exact .inl ⟨rfl, rfl⟩
  | hardwareReset rest hin => simp [hin] at hr
  | illegal cw rest cause => exact .inl ⟨performIllegal_total cause _, performIllegal_mispred cause _⟩
  | command cw rest i t hin hd ht =>
    rcases ht.totals_cases with hk | ⟨hp, ⟨a, o, rfl⟩, htotal, hmiss⟩
    · exact .inl hk
    · exact .inr ⟨hp, ⟨cw, a, o, by rw [hin]; rfl, hd⟩, htotal, hmiss⟩

/-- Settles O36: MISPRED never grows without TOTAL, so the bound is kept in both cases. -/
theorem totalsChangeOnlyByStep : Obligations.TotalsChangeOnlyByStep := by
  intro s t h hr
  have hcases := totals_cases_of_step h hr
  refine ⟨hcases, fun hle => ?_⟩
  rcases hcases with ⟨htotal, hmiss⟩ | ⟨-, -, htotal, hmiss⟩ <;> omega

/-! ### Hardware reset (10_state.md R41) -/

/-- Settles O10: each register of `State.reset` is read off its definition. -/
theorem resetRegisterValues : Obligations.ResetRegisterValues :=
  ⟨rfl, rfl, rfl, rfl, rfl, rfl, rfl, rfl, rfl, rfl⟩

end Sys2Proof.Machine
end

section
/-! Proof of the statement of 30_encoding.md R82 on illegal words. The decoder's two illegal answers are said once as an
equivalence per function, up to `decode_eq_illegal_iff`; what a step does with such a word is `step_illegal`. -/

namespace Sys2Proof

/-! ### Which words are illegal (30_encoding.md R82) -/

/-- R82 (a): a reserved value of OP. -/
def ReservedOp (op : Nat) : Prop := op = 0x0 ∨ op = 0x3 ∨ op = 0x9 ∨ 0xB ≤ op

/-- R82 (b), (c), (d): a bit that the format of `op` reserves is 1 in `cw` (R73 to R77), or SEL selects no command. -/
def BreaksFormat (op cw : Nat) : Prop :=
  (op = 0x1 ∧ slice cw 59 6 ≠ 0) ∨
  (op = 0x2 ∧ (slice cw 59 22 ≠ 0 ∨ slice cw 15 14 ≠ 0 ∨ slice cw 7 6 ≠ 0)) ∨
  (op = 0x4 ∧ slice cw 59 32 ≠ 0) ∨
  ((op = 0x5 ∨ op = 0x6) ∧ slice cw 59 33 ≠ 0) ∨
  (op = 0x7 ∧ slice cw 59 0 ≠ 0) ∨
  (op = 0x8 ∧ (slice cw 59 4 ≠ 0 ∨ 3 < slice cw 3 0)) ∨
  (op = 0xA ∧ (slice cw 59 8 ≠ 0 ∨ (slice cw 3 0 ≠ 1 ∧ slice cw 3 0 ≠ 2)))

variable {cw : Nat} {cause : IllegalCause}

@[simp] theorem ifReservedZero_eq_illegal_iff {b : Bool} {i : Instr} :
    ifReservedZero b i = .illegal cause ↔ cause = .reservedBits ∧ b = false := by
  rcases ifReservedZero_cases b i with ⟨rfl, he⟩ | ⟨rfl, he⟩ <;> simp [he, eq_comm]

theorem decodeCfgTourn_eq_illegal_iff : decodeCfgTourn cw = .illegal cause ↔
    cause = .reservedBits ∧ (slice cw 59 22 ≠ 0 ∨ slice cw 15 14 ≠ 0 ∨ slice cw 7 6 ≠ 0) := by
  simp [decodeCfgTourn, imp_iff_not_or, or_assoc]

theorem decodeRead_eq_illegal_iff : decodeRead cw = .illegal cause ↔
    cause = .reservedBits ∧ (slice cw 59 4 ≠ 0 ∨ 3 < slice cw 3 0) := by
  unfold decodeRead
  split_ifs with h0 h1 h2 h3
  · simp [h0]
  · simp [h1]
  · simp [h2]
  · simp [h3]
  · have : 3 < slice cw 3 0 := by omega
    simp [this, eq_comm]

theorem decodeAbort_eq_illegal_iff : decodeAbort cw = .illegal cause ↔
    cause = .reservedBits ∧ (slice cw 59 8 ≠ 0 ∨ (slice cw 3 0 ≠ 1 ∧ slice cw 3 0 ≠ 2)) := by
  unfold decodeAbort
  split_ifs with h1 h2
  · simp [h1]
  · simp [h2]
  · simp [h1, h2, eq_comm]

/-- A word is illegal for a reserved OP, or, at an OP that names a format, for breaking it (R83). -/
theorem decodeBits_eq_illegal_iff : decodeBits cw = .illegal cause ↔
    (cause = .reservedOp ∧ ReservedOp (slice cw 63 60)) ∨
    (cause = .reservedBits ∧ BreaksFormat (slice cw 63 60) cw) := by
  unfold decodeBits
  have hlt : slice cw 63 60 < 16 := slice_lt cw 63 60
  generalize slice cw 63 60 = op at hlt
  dsimp only
  split_ifs with h1 h2 h4 h5 h6 h7 h8 hA
  · simp [h1, ReservedOp, BreaksFormat, decodeCfgGshare]
  · simp [h2, ReservedOp, BreaksFormat, decodeCfgTourn_eq_illegal_iff]
  · simp [h4, ReservedOp, BreaksFormat, decodePredict]
  · simp [h5, ReservedOp, BreaksFormat, decodeUpdate]
  · simp [h6, ReservedOp, BreaksFormat, decodeStep]
  · simp [h7, ReservedOp, BreaksFormat, decodeFinish]
  · simp [h8, ReservedOp, BreaksFormat, decodeRead_eq_illegal_iff]
  · simp [hA, ReservedOp, BreaksFormat, decodeAbort_eq_illegal_iff]
  · have hop : ReservedOp op := by unfold ReservedOp; omega
    simp [hop, h1, h2, h4, h5, h6, h7, h8, hA, BreaksFormat, eq_comm]

/-- A field that begins at bit 0 needs no shift (00_scope.md R13). -/
theorem slice_low (v hi : Nat) : slice v hi 0 = v % 2 ^ (hi + 1) := by
  rw [slice, pow_zero, Nat.div_one, Nat.sub_zero]

/-- The four bits `CW[63:60]` are all that stands above bit 59 of a command word (R71). -/
theorem slice_opcode (w : Word) : slice w.toNat 63 60 = w.toNat / 2 ^ 60 := by
  have := w.isLt
  exact Nat.mod_eq_of_lt (by omega)

theorem decode_eq_illegal_iff {w : Word} : decode w = .illegal cause ↔
    (cause = .reservedOp ∧ ReservedOp (w.toNat / 2 ^ 60)) ∨
    (cause = .reservedBits ∧ BreaksFormat (w.toNat / 2 ^ 60) w.toNat) := by
  rw [decode, decodeBits_eq_illegal_iff, slice_opcode]

/-- Every word that is not illegal is a command (R82, R83). -/
theorem exists_decode_eq_command {w : Word} (hop : ¬ ReservedOp (w.toNat / 2 ^ 60))
    (hformat : ¬ BreaksFormat (w.toNat / 2 ^ 60) w.toNat) : ∃ i, decode w = .command i := by
  cases hd : decode w with
  | command i => exact ⟨i, rfl⟩
  | illegal cause =>
    rcases decode_eq_illegal_iff.mp hd with ⟨-, h⟩ | ⟨-, h⟩
    · exact absurd h hop
    · exact absurd h hformat

namespace Machine

/-! ### What an illegal word raises (60_exceptions.md R178) -/

/-- Outside phase 3 an illegal word is consumed and raises IllegalCommand with its cause's ERRINFO. -/
theorem step_illegal {s : State} {w : Word} {rest : List HostInput} {cause : IllegalCause}
    (hin : s.inputs = .command w :: rest) (hd : decode w = .illegal cause) (hp : s.phase ≠ .faulted) :
    step s = .next ((s.withInputs rest).raise .illegalCommand (illegalInfo cause)) := by
  rcases performIllegal_cases cause (s.withInputs rest) with ⟨hf, -⟩ | ⟨-, he⟩
  · exact absurd hf hp
  · simp only [step, fetch_illegal hin hd, he]

/-- Settles O5: the cases of R82 are those of `decode_eq_illegal_iff`, and each cause has its ERRINFO. -/
theorem illegalWordsRaise : Obligations.IllegalWordsRaise := by
  intro w op sel caseA caseBCD
  have hcase : BreaksFormat op w.toNat ↔ caseBCD := by
    simp only [BreaksFormat, slice_low]
    exact .rfl
  refine ⟨fun hA hBCD => exists_decode_eq_command hA (hcase.not.mpr hBCD), fun s rest hin hp => ⟨fun hA => ?_, fun hBCD => ?_⟩⟩
  · have hd : decode w = .illegal .reservedOp := decode_eq_illegal_iff.mpr (.inl ⟨rfl, hA⟩)
    exact ⟨_, step_illegal hin hd hp, rfl, rfl⟩
  · have hd : decode w = .illegal .reservedBits := decode_eq_illegal_iff.mpr (.inr ⟨rfl, hcase.mpr hBCD⟩)
    exact ⟨_, step_illegal hin hd hp, rfl, rfl⟩

end Machine
end Sys2Proof
end

section
/-! Proof of the statement of 41_counter_table.md R111 and R112. The saturating operations are said once in the arithmetic
of `toNat`: neither result needs the reduction to two bits, because each is already at most 3. -/

namespace Sys2Proof.Machine

/-! ### The counter cell (41_counter_table.md R111, R112) -/

/-- The vote of CTR.PREDICT (R111). -/
@[simp] theorem ctrPredict_eq_true_iff {c : Counter} : ctrPredict c = true ↔ 2 ≤ c.toNat :=
  decide_eq_true_iff

@[simp] theorem ctrAdjust_true (c : Counter) : ctrAdjust c true = satInc c := rfl

@[simp] theorem ctrAdjust_false (c : Counter) : ctrAdjust c false = satDec c := rfl

/-- `sat_inc` stays within two bits because it is capped at 3 (00_scope.md R15). -/
@[simp] theorem toNat_satInc (c : Counter) : (satInc c).toNat = min (c.toNat + 1) 3 :=
  (BitVec.toNat_ofNat _ 2).trans (Nat.mod_eq_of_lt (Nat.lt_succ_of_le (Nat.min_le_right _ 3)))

/-- On the natural numbers the guard of `sat_dec` is the truncation of the subtraction (00_scope.md R15). -/
theorem guardedPred_eq_sub_one (n : Nat) : (if 0 < n then n - 1 else 0) = n - 1 := by
  split
  · rfl
  · omega

/-- `sat_dec` stays within two bits because it is at most the counter it is applied to (00_scope.md R15). -/
@[simp] theorem toNat_satDec (c : Counter) : (satDec c).toNat = c.toNat - 1 := by
  rw [satDec, guardedPred_eq_sub_one, BitVec.toNat_ofNat]
  exact Nat.mod_eq_of_lt (Nat.lt_of_le_of_lt (Nat.sub_le _ 1) c.isLt)

/-- Settles O16: the vote is `ctrPredict_eq_true_iff`, the two directions are `toNat_satInc` and `toNat_satDec`. -/
theorem counterVotesAndSaturates : Obligations.CounterVotesAndSaturates := by
  intro c
  refine ⟨ctrPredict_eq_true_iff, toNat_satInc c, ?_⟩
  rw [ctrAdjust_false, toNat_satDec, guardedPred_eq_sub_one]

end Sys2Proof.Machine
end

section
/-! Proofs of the statements of 42_gshare.md: PREDICT and UPDATE under gshare. What the two commands do in phase 1 is said
once for every variant, what an adjustment leaves to read once for every table, and what GSHARE.PREDICT and GSHARE.UPDATE
do once for every gshare predictor. -/

namespace Sys2Proof

theorem boolBit_eq_toNat (b : Bool) : boolBit b = b.toNat := by cases b <;> rfl

namespace Machine

/-! ### The commands in phase 1 (44_driver.md R155, R156) -/

/-- The data of a prediction as a word (30_encoding.md R78). -/
theorem predictionData_eq_ite (taken : Bool) : predictionData taken = if taken then 1 else 0 := by
  cases taken <;> rfl

/-- In phase 1 the frame performs the rule of PREDICT, UPDATE and STEP with the variant's prediction. -/
theorem framed_withPrediction_of_ready {address : Nat} {perform : Bool → State → State} {s : State} {prediction : Bool}
    (hp : s.phase = .ready) (hv : s.variant.predict address = some prediction) :
    framed inReady (withPrediction address perform) s = .next (perform prediction s) := by
  rw [framed_legal (by simp [hp]) ((inReady_iff _).2 hp), withPrediction_some hv]

theorem exec_predict_of_ready {s : State} {addr : Nat} {prediction : Bool} (hp : s.phase = .ready)
    (hv : s.variant.predict addr = some prediction) :
    exec (.predict addr) s = .next (answerPrediction prediction s) :=
  framed_withPrediction_of_ready hp hv

theorem exec_update_of_ready {s : State} {addr : Nat} {outcome prediction : Bool} (hp : s.phase = .ready)
    (hv : s.variant.predict addr = some prediction) :
    exec (.update addr outcome) s = .next (train addr outcome s) :=
  framed_withPrediction_of_ready hp hv

/-! ### Adjusting a counter of a table (41_counter_table.md R112, R114) -/

theorem toNat_ctrAdjust (c : Counter) (taken : Bool) :
    (ctrAdjust c taken).toNat = if taken then min (c.toNat + 1) 3 else c.toNat - 1 := by
  cases taken
  · exact toNat_satDec c
  · exact toNat_satInc c

theorem read_tblAdjust_same {m : Memory Counter} (h : m.wf = true) (bits index : Nat) (taken : Bool) :
    (tblAdjust bits m index taken).read (lookupIndex bits index) =
      ctrAdjust (m.read (lookupIndex bits index)) taken :=
  m.read_write_same h _ _

theorem read_tblAdjust_other (m : Memory Counter) {bits index j : Nat} (taken : Bool) (h : j ≠ lookupIndex bits index) :
    (tblAdjust bits m index taken).read j = m.read j :=
  m.read_write_other _ h

/-! ### The gshare predictor (42_gshare.md R126 to R129) -/

@[simp] theorem Variant.predict_gshare (g : Gshare) (address : Nat) :
    (Variant.gshare g).predict address = some (g.predict address) := rfl

@[simp] theorem Variant.update_gshare (g : Gshare) (address : Nat) (actual : Bool) :
    (Variant.gshare g).update address actual = .gshare (g.update address actual) := rfl

namespace Gshare

/-- TBL.LOOKUP selects the very cell GSHARE.INDEX names (R127). -/
@[simp] theorem lookupIndex_index (g : Gshare) (address : Nat) :
    lookupIndex g.historyBits (g.index address) = g.index address :=
  lookupIndex_of_lt (g.index_lt address)

theorem predict_eq_true_iff (g : Gshare) (address : Nat) :
    g.predict address = true ↔ 2 ≤ (g.pht.read (g.index address)).toNat := by
  rw [predict, tblPredict, lookupIndex_index, ctrPredict_eq_true_iff]

@[simp] theorem update_historyBits (g : Gshare) (address : Nat) (actual : Bool) :
    (g.update address actual).historyBits = g.historyBits := rfl

theorem update_ghr (g : Gshare) (address : Nat) (actual : Bool) :
    (g.update address actual).ghr = (2 * g.ghr + actual.toNat) % 2 ^ g.historyBits := by
  rw [← boolBit_eq_toNat]
  exact shiftIn_eq g.historyBits g.ghr actual

/-- The counter GSHARE.UPDATE adjusts is the one at the index of the GHR before it (R128). -/
theorem read_update_same {g : Gshare} (h : g.pht.wf = true) (address : Nat) (actual : Bool) :
    (g.update address actual).pht.read (g.index address) = ctrAdjust (g.pht.read (g.index address)) actual := by
  have hread := read_tblAdjust_same h g.historyBits (g.index address) actual
  rwa [lookupIndex_index] at hread

theorem read_update_other (g : Gshare) {address j : Nat} (actual : Bool) (h : j ≠ g.index address) :
    (g.update address actual).pht.read j = g.pht.read j :=
  read_tblAdjust_other g.pht actual (by rwa [lookupIndex_index])

end Gshare

/-- Settles O20: UPDATE replaces the predictor `g` by `g.update addr outcome`, whose cells and GHR the lemmas on
`Gshare.update` give; the statement's index is `g.index addr`, of the old GHR, by definition. -/
theorem updateGshare : Obligations.UpdateGshare := by
  intro s g addr outcome hp hv hwf index
  refine ⟨g.update addr outcome, ?_, g.update_historyBits addr outcome, g.update_ghr addr outcome, ?_,
    fun j => g.read_update_other outcome⟩
  · have hpredict : s.variant.predict addr = some (g.predict addr) := by rw [hv, Variant.predict_gshare]
    rw [exec_update_of_ready hp hpredict, train, hv, Variant.update_gshare]
    rfl
  · calc ((g.update addr outcome).pht.read (g.index addr)).toNat
        = (ctrAdjust (g.pht.read (g.index addr)) outcome).toNat := by rw [Gshare.read_update_same hwf]
      _ = _ := toNat_ctrAdjust _ outcome

/-- Settles O18: the response carries `g.predict addr`, the vote of the counter at GSHARE.INDEX. -/
theorem predictGshare : Obligations.PredictGshare := by
  intro s g addr hp hv counter
  have hpredict : s.variant.predict addr = some (g.predict addr) := by rw [hv, Variant.predict_gshare]
  have hdata : predictionData (g.predict addr) = if 2 ≤ counter then 1 else 0 := by
    rw [predictionData_eq_ite]
    exact if_congr (g.predict_eq_true_iff addr) rfl rfl
  rw [exec_predict_of_ready hp hpredict, answerPrediction, hdata]
  rfl

end Machine
end Sys2Proof
end

section
/-! Proofs of the statements of 43_tournament.md: PREDICT and UPDATE under tournament. The lookups of an index already in
range are said once for every table, then the votes, the answer, the chooser's training and the cells TOURN.UPDATE leaves
to read, in the spelled-out indices of the statements: TGHR and the local history register `localReg`. -/

namespace Sys2Proof.Machine

/-! ### Tables at an index in range (41_counter_table.md R114, 90_conflicts.md C2) -/

theorem tblPredict_of_lt (m : Memory Counter) {bits index : Nat} (h : index < 2 ^ bits) :
    tblPredict bits m index = decide (2 ≤ (m.read index).toNat) := by
  rw [tblPredict, lookupIndex_of_lt h, ctrPredict]

theorem toNat_read_tblAdjust_of_lt {m : Memory Counter} {bits index : Nat} (hm : MemoryOk (2 ^ bits) m)
    (h : index < 2 ^ bits) (taken : Bool) :
    ((tblAdjust bits m index taken).read index).toNat =
      if taken then min ((m.read index).toNat + 1) 3 else (m.read index).toNat - 1 := by
  have hread := read_tblAdjust_same hm.canonical bits index taken
  rw [lookupIndex_of_lt h] at hread
  rw [hread, toNat_ctrAdjust]

theorem read_tblAdjust_other_of_lt (m : Memory Counter) {bits index j : Nat} (h : index < 2 ^ bits) (taken : Bool)
    (hj : j ≠ index) : (tblAdjust bits m index taken).read j = m.read j :=
  read_tblAdjust_other m taken (by rwa [lookupIndex_of_lt h])

/-! ### The tournament predictor (43_tournament.md R136 to R144) -/

@[simp] theorem Variant.predict_tourn (t : Tournament) (address : Nat) :
    (Variant.tourn t).predict address = some (t.predict address) := rfl

@[simp] theorem Variant.update_tourn (t : Tournament) (address : Nat) (actual : Bool) :
    (Variant.tourn t).update address actual = .tourn (t.update address actual) := rfl

namespace Tournament

variable {t : Tournament} {address : Nat}

theorem globalVote_eq (h : t.tghr < 2 ^ t.globalBits) :
    t.globalVote = decide (2 ≤ (t.gpt.read t.tghr).toNat) :=
  tblPredict_of_lt t.gpt h

theorem localVote_eq (h : t.localReg address < 2 ^ t.localHistoryBits) :
    t.localVote address = decide (2 ≤ (t.lpt.read (t.localReg address)).toNat) :=
  tblPredict_of_lt t.lpt h

theorem trustGlobal_eq (h : t.tghr < 2 ^ t.globalBits) :
    t.trustGlobal = decide (2 ≤ (t.cpt.read t.tghr).toNat) :=
  tblPredict_of_lt t.cpt h

/-- The answer is the vote of the sub-predictor the chooser trusts (R141). -/
theorem predict_eq_true_iff (t : Tournament) (address : Nat) : t.predict address = true ↔
    (t.trustGlobal = true ∧ t.globalVote = true) ∨ (¬ t.trustGlobal = true ∧ t.localVote address = true) := by
  rw [predict]
  split_ifs with htrust <;> simp [htrust]

/-! What TOURN.UPDATE writes to the chooser table (R142). -/

theorem trainChooser_of_agree (h : t.globalVote = t.localVote address) (actual : Bool) :
    t.trainChooser address actual = t.cpt := by
  simp [trainChooser, h]

theorem trainChooser_of_differ (h : t.globalVote ≠ t.localVote address) (actual : Bool) :
    t.trainChooser address actual = tblAdjust t.globalBits t.cpt t.tghr (t.globalVote == actual) := by
  simp [trainChooser, h, gIndex, asIndex]

theorem read_trainChooser_other (h : t.tghr < 2 ^ t.globalBits) (address : Nat) (actual : Bool) {j : Nat}
    (hj : j ≠ t.tghr) : (t.trainChooser address actual).read j = t.cpt.read j := by
  by_cases hvotes : t.globalVote = t.localVote address
  · rw [trainChooser_of_agree hvotes]
  · rw [trainChooser_of_differ hvotes, read_tblAdjust_other_of_lt t.cpt h _ hj]

/-! What TOURN.UPDATE writes to each element, every index of the state before it (R144). -/

theorem update_gpt (t : Tournament) (address : Nat) (actual : Bool) :
    (t.update address actual).gpt = tblAdjust t.globalBits t.gpt t.tghr actual := rfl

theorem update_lpt (t : Tournament) (address : Nat) (actual : Bool) :
    (t.update address actual).lpt = tblAdjust t.localHistoryBits t.lpt (t.localReg address) actual := rfl

theorem update_cpt (t : Tournament) (address : Nat) (actual : Bool) :
    (t.update address actual).cpt = t.trainChooser address actual := rfl

theorem update_tghr (t : Tournament) (address : Nat) (actual : Bool) :
    (t.update address actual).tghr = (2 * t.tghr + actual.toNat) % 2 ^ t.globalBits := by
  rw [← boolBit_eq_toNat]
  exact shiftIn_eq t.globalBits t.tghr actual

theorem localReg_update (h : t.lhr.wf = true) (address : Nat) (actual : Bool) :
    (t.update address actual).localReg address =
      (2 * t.localReg address + actual.toNat) % 2 ^ t.localHistoryBits := by
  rw [← boolBit_eq_toNat, ← shiftIn_eq]
  exact t.lhr.read_write_same h (t.slot address) _

theorem read_update_lhr_other (t : Tournament) {address j : Nat} (actual : Bool) (h : j ≠ t.slot address) :
    (t.update address actual).lhr.read j = t.lhr.read j :=
  t.lhr.read_write_other _ h

end Tournament

/-! ### The commands under tournament in phase 1 (44_driver.md R155, R156) -/

theorem exec_predict_tourn {s : State} {t : Tournament} (hp : s.phase = .ready) (hv : s.variant = .tourn t)
    (addr : Nat) :
    exec (.predict addr) s =
      .next { s with response := some ⟨0, if t.predict addr = true then 1 else 0⟩ } := by
  have hpredict : s.variant.predict addr = some (t.predict addr) := by rw [hv, Variant.predict_tourn]
  rw [exec_predict_of_ready hp hpredict, answerPrediction, predictionData_eq_ite]
  rfl

theorem exec_update_tourn {s : State} {t : Tournament} (hp : s.phase = .ready) (hv : s.variant = .tourn t)
    (addr : Nat) (outcome : Bool) :
    exec (.update addr outcome) s =
      .next { s with variant := .tourn (t.update addr outcome), response := some ⟨0, 0⟩ } := by
  have hpredict : s.variant.predict addr = some (t.predict addr) := by rw [hv, Variant.predict_tourn]
  rw [exec_update_of_ready hp hpredict, train, hv, Variant.update_tourn]
  rfl

/-- Settles O21: UPDATE replaces the predictor `t` by `t.update addr outcome`. Each table is adjusted at an index in
range, so `toNat_read_tblAdjust_of_lt` and `read_tblAdjust_other_of_lt` give its cells; whether the chooser is adjusted
is the choice between `trainChooser_of_agree` and `trainChooser_of_differ`, on the votes of the old state. -/
theorem updateTournament : Obligations.UpdateTournament := by
  intro s t addr outcome hp hv hok slot lIndex globalVote localVote moved
  obtain ⟨htghr, hgpt, hcpt, hlpt, hlhr, hlt⟩ := hok
  have hlocal : t.localReg addr < 2 ^ t.localHistoryBits := hlt slot
  have hglobalVote : t.globalVote = globalVote := Tournament.globalVote_eq htghr
  have hlocalVote : t.localVote addr = localVote := Tournament.localVote_eq hlocal
  refine ⟨t.update addr outcome, exec_update_tourn hp hv addr outcome, rfl, rfl, rfl, ?gpt, ?gptOther, ?lpt, ?lptOther,
    ?agree, ?differ, ?cptOther, t.update_tghr addr outcome, Tournament.localReg_update hlhr.canonical addr outcome,
    fun j => t.read_update_lhr_other outcome⟩
  case gpt =>
    rw [Tournament.update_gpt]
    exact toNat_read_tblAdjust_of_lt hgpt htghr outcome
  case gptOther =>
    intro j hj
    rw [Tournament.update_gpt, read_tblAdjust_other_of_lt t.gpt htghr outcome hj]
  case lpt =>
    rw [Tournament.update_lpt]
    exact toNat_read_tblAdjust_of_lt hlpt hlocal outcome
  case lptOther =>
    intro j hj
    rw [Tournament.update_lpt, read_tblAdjust_other_of_lt t.lpt hlocal outcome hj]
  case agree =>
    intro hvotes
    rw [← hglobalVote, ← hlocalVote] at hvotes
    rw [Tournament.update_cpt, Tournament.trainChooser_of_agree hvotes]
  case differ =>
    intro hvotes
    rw [← hglobalVote, ← hlocalVote] at hvotes
    rw [Tournament.update_cpt, Tournament.trainChooser_of_differ hvotes, hglobalVote]
    exact toNat_read_tblAdjust_of_lt hcpt htghr _
  case cptOther =>
    intro j hj
    rw [Tournament.update_cpt, Tournament.read_trainChooser_other htghr addr outcome hj]

/-- Settles O19: the response carries `t.predict addr`, whose three lookups are at indices in range. -/
theorem predictTournament : Obligations.PredictTournament := by
  intro s t addr hp hv htghr hlocal globalVote localVote trustGlobal
  have hlocal : t.localReg addr < 2 ^ t.localHistoryBits := hlocal
  have hpredict : t.predict addr = true ↔ (trustGlobal ∧ globalVote) ∨ (¬ trustGlobal ∧ localVote) := by
    rw [Tournament.predict_eq_true_iff, Tournament.trustGlobal_eq htghr, Tournament.globalVote_eq htghr,
      Tournament.localVote_eq hlocal]
    simp only [decide_eq_true_eq]
    rfl
  rw [exec_predict_tourn hp hv]
  simp only [hpredict]

end Sys2Proof.Machine
end

section
/-! Proofs of the statements of 44_driver.md on single commands: the two CFG commands, STEP, FINISH, two register reads
and the two reports. What each frame performs in its legal phases, what a raised error writes, what the widths' check
decides and what the two data layouts hold is said once; each command's statement then reads one of these off. -/

namespace Sys2Proof.Machine

/-! ### The frames in their legal phases (44_driver.md R150) -/

section
variable {perform : State → Result} {s : State}

theorem framed_inUninitialized (hp : s.phase = .uninitialized) : framed inUninitialized perform s = perform s :=
  framed_legal (by simp [hp]) ((inUninitialized_iff _).2 hp)

theorem framed_inReady (hp : s.phase = .ready) : framed inReady perform s = perform s :=
  framed_legal (by simp [hp]) ((inReady_iff _).2 hp)

theorem framed_unlessFaulted (hp : s.phase ≠ .faulted) : framed unlessFaulted perform s = perform s :=
  framed_legal hp ((unlessFaulted_iff _).2 hp)

end

/-! ### What a raised error writes (60_exceptions.md R181) -/

/-- The STATUS layout of the response carries the recorded ERRINFO undiminished, as it fits four bits. -/
theorem State.raise_ofNat (s : State) (e : ErrKind) {info : Nat} (h : info < 2 ^ 4) :
    s.raise e (BitVec.ofNat 4 info) = { s with
      phase := .faulted
      err := e
      errInfo := BitVec.ofNat 4 info
      response := some ⟨e.status, BitVec.ofNat 64 (3 + 4 * s.variant.mode.toNat + 16 * e.code + 256 * info)⟩ } := by
  have hinfo : (BitVec.ofNat 4 info).toNat = info := by rw [BitVec.toNat_ofNat, Nat.mod_eq_of_lt h]
  have hdata : (s.recordError e (BitVec.ofNat 4 info)).statusData =
      BitVec.ofNat 64 (3 + 4 * s.variant.mode.toNat + 16 * e.code + 256 * info) := by
    simp [State.statusData, Phase.code, hinfo]
  rw [State.raise, hdata]
  rfl

/-! ### The check of the widths (44_driver.md R151 to R154) -/

section
variable {maxBits w : Nat} {widths : List Nat} {v : Variant} {s : State}

/-- Any zero width decides for cause 3, whatever the others are. -/
theorem widthsError_of_zero (h : 0 ∈ widths) : widthsError maxBits widths = some zeroWidthInfo :=
  if_pos (List.any_eq_true.mpr ⟨0, h, rfl⟩)

theorem widthsError_of_tooWide (h0 : 0 ∉ widths) (hw : w ∈ widths) (h : maxBits < w) :
    widthsError maxBits widths = some tooWideInfo := by
  have hzero : ¬ (widths.any fun w => w == 0) = true := by simpa using h0
  have hwide : (widths.any fun w => decide (maxBits < w)) = true :=
    List.any_eq_true.mpr ⟨w, hw, decide_eq_true h⟩
  rw [widthsError, if_neg hzero, if_pos hwide]

theorem configure_constructs (h : ∀ w ∈ widths, WidthOk s.params.maxBits w) :
    configure widths v s = .next ((s.construct v).respondOk 0) := by
  rw [configure, (widthsError_none_iff _ _).2 h]

/-- The check's order as one number: a bad width is refused with cause 3 if any width is 0, else with cause 4. -/
theorem widthsError_of_bad (hw : w ∈ widths) (h : w = 0 ∨ maxBits < w) :
    widthsError maxBits widths = some (BitVec.ofNat 4 (if 0 ∈ widths then 3 else 4)) := by
  by_cases h0 : 0 ∈ widths
  · rw [widthsError_of_zero h0, if_pos h0]
    rfl
  · have hwide : maxBits < w := h.resolve_left fun hz => h0 (hz ▸ hw)
    rw [widthsError_of_tooWide h0 hw hwide, if_neg h0]
    rfl

theorem configure_rejects {info : Nat} (hw : w ∈ widths) (h : w = 0 ∨ s.params.maxBits < w)
    (hcause : (if 0 ∈ widths then 3 else 4) = info) :
    configure widths v s = .next { s with
      phase := .faulted
      err := .configuration
      errInfo := BitVec.ofNat 4 info
      response := some ⟨1, BitVec.ofNat 64 (3 + 4 * s.variant.mode.toNat + 16 * 1 + 256 * info)⟩ } := by
  have hinfo : info < 2 ^ 4 := by
    rw [← hcause]
    split <;> decide
  have hraise : configure widths v s = .next (s.raise .configuration (BitVec.ofNat 4 info)) := by
    rw [configure, widthsError_of_bad hw h, hcause]
  rw [hraise, State.raise_ofNat s _ hinfo]
  rfl

end

/-! ### CFG.GSHARE (44_driver.md R151, R152) -/

theorem exec_cfgGshare_of_uninitialized {s : State} (hp : s.phase = .uninitialized) (wa : Nat) :
    exec (.cfgGshare wa) s = configure [wa] (.gshare (Gshare.construct s.params wa)) s :=
  framed_inUninitialized hp

/-- Settles O11: the constructed predictor is `Gshare.construct`, whose memory is filled with INIT_CTR. -/
theorem cfgGshareConstructs : Obligations.CfgGshareConstructs := by
  intro s wa hp hpos hmax
  have hw : ∀ w ∈ [wa], WidthOk s.params.maxBits w := List.forall_mem_singleton.2 ⟨hpos, hmax⟩
  refine ⟨Gshare.construct s.params wa, ?_, rfl, rfl, Memory.read_filled _, rfl, rfl, rfl, rfl⟩
  rw [exec_cfgGshare_of_uninitialized hp, configure_constructs hw]
  rfl

/-- Settles O12: `configure_rejects` on the one width, which is zero exactly when 0 is among the widths. -/
theorem cfgGshareRejects : Obligations.CfgGshareRejects := by
  intro s wa hp h info
  have hcause : (if 0 ∈ [wa] then 3 else 4) = info := by simp [info, eq_comm]
  rw [exec_cfgGshare_of_uninitialized hp, configure_rejects List.mem_cons_self h hcause]

/-! ### CFG.TOURN (44_driver.md R153, R154) -/

theorem exec_cfgTourn_of_uninitialized {s : State} (hp : s.phase = .uninitialized) (wa wb wc : Nat) :
    exec (.cfgTourn wa wb wc) s =
      configure [wa, wb, wc] (.tourn (Tournament.construct s.params wa wb wc)) s :=
  framed_inUninitialized hp

/-- Settles O13: the constructed predictor is `Tournament.construct`, each of whose memories is filled. -/
theorem cfgTournConstructs : Obligations.CfgTournConstructs := by
  intro s wa wb wc hp ha ha' hb hb' hc hc'
  have hw : ∀ w ∈ [wa, wb, wc], WidthOk s.params.maxBits w := by
    simp only [List.forall_mem_cons]
    exact ⟨⟨ha, ha'⟩, ⟨hb, hb'⟩, ⟨hc, hc'⟩, List.forall_mem_nil _⟩
  refine ⟨Tournament.construct s.params wa wb wc, ?_, rfl, rfl, rfl, rfl, Memory.read_filled _, Memory.read_filled _,
    Memory.read_filled _, Memory.read_filled _, rfl, rfl, rfl, rfl⟩
  rw [exec_cfgTourn_of_uninitialized hp, configure_constructs hw]
  rfl

/-- Settles O14: some width of the three is bad, so `configure_rejects` applies with the cause of R154's order. -/
theorem cfgTournRejects : Obligations.CfgTournRejects := by
  intro s wa wb wc hp h info
  obtain ⟨w, hw, hbad⟩ : ∃ w ∈ [wa, wb, wc], w = 0 ∨ s.params.maxBits < w := by
    simp only [List.mem_cons, List.not_mem_nil, or_false, exists_eq_or_imp, exists_eq_left]
    tauto
  have hcause : (if 0 ∈ [wa, wb, wc] then 3 else 4) = info := by simp [info, eq_comm]
  rw [exec_cfgTourn_of_uninitialized hp, configure_rejects hw hbad hcause]

/-! ### STEP and FINISH (44_driver.md R158, R160) -/

theorem exec_step_of_ready {s : State} {addr : Nat} {outcome prediction : Bool} (hp : s.phase = .ready)
    (hv : s.variant.predict addr = some prediction) :
    exec (.step addr outcome) s = .next (performRecord addr outcome prediction s) :=
  framed_withPrediction_of_ready hp hv

theorem count_mispred_eq_ite (s : State) (prediction outcome : Bool) :
    (s.count (mispredicted prediction outcome)).mispred =
      if prediction = outcome then s.mispred else s.mispred + 1 := by
  cases prediction <;> cases outcome <;> rfl

/-- Settles O22: the record's writes are those of `performRecord`, with MISPRED by `count_mispred_eq_ite`. -/
theorem stepPerformsRecord : Obligations.StepPerformsRecord := by
  intro s addr outcome pred hp hv
  rw [exec_step_of_ready hp hv, ← count_mispred_eq_ite, ← predictionData_eq_ite]
  rfl

/-- Settles O25: in phase 1 the frame performs `endRun`. -/
theorem finishEndsRun : Obligations.FinishEndsRun := fun _ hp =>
  framed_inReady (perform := endRun) hp

/-! ### The register reads (44_driver.md R163, R164) -/

/-- A read outside phase 3 responds with its data and changes nothing else. -/
theorem framed_answer {s : State} (data : State → Word) (hp : s.phase ≠ .faulted) :
    framed unlessFaulted (answer data) s = .next { s with response := some ⟨0, data s⟩ } :=
  framed_unlessFaulted hp

theorem Phase.code_lt (p : Phase) : p.code < 2 ^ 2 := by cases p <;> decide

theorem ErrKind.code_lt (e : ErrKind) : e.code < 2 ^ 4 := by cases e <;> decide

namespace State

variable (s : State)

/-- The four fields of the STATUS layout fit the word, so its value is their sum (30_encoding.md R80). -/
theorem toNat_statusData : s.statusData.toNat =
    s.phase.code + 2 ^ 2 * s.variant.mode.toNat + 2 ^ 4 * s.err.code + 2 ^ 8 * s.errInfo.toNat := by
  have := s.phase.code_lt
  have := s.variant.mode.isLt
  have := s.err.code_lt
  have := s.errInfo.isLt
  rw [statusData, BitVec.toNat_ofNat]
  exact Nat.mod_eq_of_lt (by omega)

/-- Each field of the STATUS layout is read back at its bit position, and no bit stands above them. -/
theorem statusData_fields :
    s.statusData.toNat % 2 ^ 2 = s.phase.code ∧
    s.statusData.toNat / 2 ^ 2 % 2 ^ 2 = s.variant.mode.toNat ∧
    s.statusData.toNat / 2 ^ 4 % 2 ^ 4 = s.err.code ∧
    s.statusData.toNat / 2 ^ 8 % 2 ^ 4 = s.errInfo.toNat ∧
    s.statusData.toNat / 2 ^ 12 = 0 := by
  have := s.phase.code_lt
  have := s.variant.mode.isLt
  have := s.err.code_lt
  have := s.errInfo.isLt
  rw [toNat_statusData]
  omega

/-- The three widths fit the word (30_encoding.md R80). -/
theorem toNat_configData : s.configData.toNat =
    s.variant.w0.toNat + s.variant.w1.toNat * 2 ^ 8 + s.variant.w2.toNat * 2 ^ 16 := by
  have := s.variant.w0.isLt
  have := s.variant.w1.isLt
  have := s.variant.w2.isLt
  rw [configData, BitVec.toNat_ofNat]
  exact Nat.mod_eq_of_lt (by omega)

end State

/-- Outside phase 3 there is no error to report: ERR and ERRINFO read 0 (44_driver.md R163). -/
theorem Inv.no_error {s : State} (h : Inv s) (hp : s.phase ≠ .faulted) : s.err = .noError ∧ s.errInfo = 0 :=
  have herr := h.err_iff.2 hp
  ⟨herr, h.info_zero herr⟩

/-- Settles O27: the data is `State.statusData`, whose fields `statusData_fields` reads; with the invariant only PHASE
and MODE are left, below bit 4. -/
theorem readStatus : Obligations.ReadStatus := by
  intro s hp
  obtain ⟨hphase, hmode, herr, hinfo, htop⟩ := s.statusData_fields
  refine ⟨s.statusData, framed_answer State.statusData hp, ?phase, ?mode, ?err, hinfo, htop, ?inv⟩
  case phase =>
    rw [hphase]
    cases s.phase <;> rfl
  case mode =>
    rw [hmode]
    cases s.variant <;> rfl
  case err =>
    rw [herr]
    cases s.err <;> rfl
  case inv =>
    intro hs
    obtain ⟨he, hi⟩ := hs.no_error hp
    have hcode : s.err.code = 0 := by rw [he]; rfl
    have hzero : s.errInfo.toNat = 0 := by rw [hi]; rfl
    omega

/-- Settles O28: the data is `State.configData`, and a width below 64 is its own 6-bit register. -/
theorem readConfig : Obligations.ReadConfig := by
  intro s hp
  refine ⟨s.configData, framed_answer State.configData hp, s.toNat_configData, ?gshare, ?tourn, ?unconfigured⟩
  case gshare =>
    intro g hv hh
    rw [State.toNat_configData, hv]
    simp [Variant.w0, Variant.w1, Variant.w2, Nat.mod_eq_of_lt hh]
  case tourn =>
    intro t hv hg hl hpc
    rw [State.toNat_configData, hv]
    simp [Variant.w0, Variant.w1, Variant.w2, Nat.mod_eq_of_lt hg, Nat.mod_eq_of_lt hl, Nat.mod_eq_of_lt hpc]
  case unconfigured =>
    intro hv
    rw [State.configData, hv]
    rfl

/-! ### The reports of the front end (44_driver.md R166) -/

theorem framed_report {s : State} (e : ErrKind) (info : Nat) (hp : s.phase ≠ .faulted) :
    framed unlessFaulted (report e info) s = .next (s.raise e (BitVec.ofNat 4 info)) :=
  framed_unlessFaulted hp

/-- Settles O29: both reports raise their error with ERRINFO = INFO, which `State.raise_ofNat` spells out. -/
theorem abortRecordsError : Obligations.AbortRecordsError := by
  intro s info hp hinfo
  have hreport (e : ErrKind) := framed_report e info hp
  simp only [State.raise_ofNat s _ hinfo] at hreport
  exact ⟨hreport .configuration, hreport .malformedRecord⟩

end Sys2Proof.Machine
end

section
/-! Proofs of the statements of 60_exceptions.md. Each error entry is `State.raise` of one kind with one ERRINFO, and each
answer in phase 3 is `State.respondFaulted`; what the two write is spelled out once, and a statement is settled by saying
which of them a command or a step performs. -/

namespace Sys2Proof.Machine

/-! ### IllegalCommand (60_exceptions.md R178) -/

/-- Settles O8: `step_illegal` raises the error, and `State.raise_ofNat` reads the cause's ERRINFO into the response. -/
theorem illegalWordErrorEntry : Obligations.IllegalWordErrorEntry := by
  intro s w rest cause hin hd hp info
  have hinfo : illegalInfo cause = BitVec.ofNat 4 info := by cases cause <;> rfl
  have hlt : info < 2 ^ 4 := by cases cause <;> decide
  rw [step_illegal hin hd hp, hinfo, State.raise_ofNat _ _ hlt]
  rfl

/-! ### PhaseError (60_exceptions.md R180) -/

section
variable {perform : State → Result} {s : State}

theorem framed_inUninitialized_of_ne (hf : s.phase ≠ .faulted) (hp : s.phase ≠ .uninitialized) :
    framed inUninitialized perform s = .next (s.raise .phase s.phase.info) :=
  framed_illegal hf (Bool.eq_false_iff.mpr ((inUninitialized_iff _).not.mpr hp))

theorem framed_inReady_of_ne (hf : s.phase ≠ .faulted) (hp : s.phase ≠ .ready) :
    framed inReady perform s = .next (s.raise .phase s.phase.info) :=
  framed_illegal hf (Bool.eq_false_iff.mpr ((inReady_iff _).not.mpr hp))

end

/-- ERRINFO of a PhaseError is the code of PHASE, which fits its four bits (60_exceptions.md R176). -/
theorem State.raise_phaseInfo (s : State) : s.raise .phase s.phase.info = { s with
    phase := .faulted
    err := .phase
    errInfo := BitVec.ofNat 4 s.phase.code
    response := some ⟨4, BitVec.ofNat 64 (3 + 4 * s.variant.mode.toNat + 16 * 4 + 256 * s.phase.code)⟩ } :=
  s.raise_ofNat .phase (s.phase.code_lt.trans (by decide))

/-- Settles O30: whatever its operands, a command whose frame the phase fails raises PhaseError. -/
theorem phaseErrorEntry : Obligations.PhaseErrorEntry := by
  intro s i hf hout info
  have hinfo : info = s.phase.code := by
    simp only [info]
    cases s.phase <;> rfl
  have hraise : exec i s = .next (s.raise .phase s.phase.info) := by
    rcases hout with ⟨hcfg, hp⟩ | ⟨hrun, hp⟩
    · rcases hcfg with ⟨wa, rfl⟩ | ⟨wa, wb, wc, rfl⟩ <;> exact framed_inUninitialized_of_ne hf hp
    · rcases hrun with ⟨a, rfl⟩ | ⟨a, o, rfl⟩ | ⟨a, o, rfl⟩ | rfl <;> exact framed_inReady_of_ne hf hp
  rw [hraise, s.raise_phaseInfo, hinfo]

/-! ### Phase 3 (60_exceptions.md R183) -/

/-- Every command is framed, so none reaches its own rule in phase 3. -/
theorem exec_of_faulted {s : State} (hp : s.phase = .faulted) (i : Instr) : exec i s = .next s.respondFaulted := by
  cases i with
  | cfgGshare | cfgTourn | predict | update | step | finish | rdTotal | rdMiss | rdStatus | rdConfig | abortCfg
  | abortRec => exact framed_faulted hp

/-- A word in phase 3 is consumed and answered, whether it is legal or not. -/
theorem step_of_faulted {s : State} {w : Word} {rest : List HostInput} (hp : s.phase = .faulted)
    (hin : s.inputs = .command w :: rest) : step s = .next (s.withInputs rest).respondFaulted := by
  cases hd : decode w with
  | command i =>
    simp only [step, fetch_command hin hd]
    exact exec_of_faulted (s := s.withInputs rest) hp i
  | illegal cause =>
    rcases performIllegal_cases cause (s.withInputs rest) with ⟨-, he⟩ | ⟨hf, -⟩
    · simp only [step, fetch_illegal hin hd, he]
    · exact absurd hp hf

/-- Settles O31: `State.respondFaulted` is the response (5, STATUS layout) and writes the response port alone. -/
theorem faultedAnswersStatusFive : Obligations.FaultedAnswersStatusFive := by
  intro s hp status
  exact ⟨exec_of_faulted hp, fun w rest hin => step_of_faulted hp hin⟩

/-! ### Errors are precise (60_exceptions.md R181) -/

theorem ErrKind.toNat_status (e : ErrKind) : e.status.toNat = e.code := by
  rw [ErrKind.status, BitVec.toNat_ofNat, Nat.mod_eq_of_lt e.code_lt]

/-- A command that enters phase 3 does so by `raise`: no other end of a command moves PHASE there. -/
theorem Performed.eq_raise {s t : State} {i : Instr} (h : Performed s i t) (hp : s.phase ≠ .faulted)
    (ht : t.phase = .faulted) : ∃ e info, e ≠ .noError ∧ t = s.raise e info := by
  cases h with
  | error e info _ he => exact ⟨e, info, he, rfl⟩
  | faulted hf => exact absurd hf hp
  | gshare | tourn | finish => cases ht
  | predict | update | step | read => exact absurd ht hp

/-- A step that enters phase 3 consumes its input and raises an error, and does nothing else. -/
theorem eq_raise_of_step {s t : State} (h : step s = .next t) (hp : s.phase ≠ .faulted) (ht : t.phase = .faulted) :
    ∃ e info, e ≠ .noError ∧ t = (s.withInputs s.inputs.tail).raise e info := by
  cases stepped_of_step h with
  | idle => exact absurd ht hp
  | hardwareReset => cases ht
  | illegal cw rest cause hin =>
    rw [hin]
    exact (performed_performIllegal cause (s.withInputs rest) .finish).eq_raise hp ht
  | command cw rest i t hin hd hperf =>
    rw [hin]
    exact hperf.eq_raise hp ht

/-- Settles O32: every error entry is a `raise`, whose response carries the ERR code and the STATUS layout it leaves. -/
theorem errorsArePrecise : Obligations.ErrorsArePrecise := by
  intro s t h hp ht
  obtain ⟨e, info, he, rfl⟩ := eq_raise_of_step h hp ht
  exact ⟨_, e.toNat_status, (State.raise_statusData _ e info).symm, he, rfl⟩

end Sys2Proof.Machine
end

section
/-! Proofs of the statements of 30_encoding.md sections 1, 2 and 4. Each format's decoder is said once as an
equivalence: it answers the command `i` exactly when `i` is of the format and the word carries its operands. Together
they say that a word decodes to its one command (`decode_eq_command_iff`); the test of each row of the opcode table is
then read as the same fields. -/

namespace Sys2Proof

/-! ### Decoding to a command (30_encoding.md R73 to R77, R83) -/

/-- The bits of `cw` below the opcode are those of `i`, whose operands all fit their fields (R71). -/
def CarriesOperands (cw : Nat) (i : Instr) : Prop := i.wellFormed = true ∧ cw % 2 ^ 60 = i.operandBits

section
variable {cw : Nat} {i : Instr}

@[simp] theorem ifReservedZero_eq_command_iff {b : Bool} {j : Instr} :
    ifReservedZero b j = .command i ↔ b = true ∧ j = i := by
  rcases ifReservedZero_cases b j with ⟨rfl, he⟩ | ⟨rfl, he⟩ <;> simp [he]

theorem bitAt_eq_iff (v n : Nat) (b : Bool) : bitAt v n = b ↔ v / 2 ^ n % 2 = boolBit b := by
  cases b <;> simp [bitAt, slice]

/-! The operand bits of each format, field by field. -/

@[simp] theorem carriesOperands_cfgGshare {wa : Nat} :
    CarriesOperands cw (.cfgGshare wa) ↔ slice cw 59 6 = 0 ∧ slice cw 5 0 = wa := by
  simp only [CarriesOperands, Instr.wellFormed, widthFits_iff, Instr.operandBits, slice]
  omega

@[simp] theorem carriesOperands_cfgTourn {wa wb wc : Nat} :
    CarriesOperands cw (.cfgTourn wa wb wc) ↔ (slice cw 59 22 = 0 ∧ slice cw 15 14 = 0 ∧ slice cw 7 6 = 0) ∧
      slice cw 5 0 = wa ∧ slice cw 13 8 = wb ∧ slice cw 21 16 = wc := by
  simp only [CarriesOperands, Instr.wellFormed, Bool.and_eq_true, widthFits_iff, Instr.operandBits, slice]
  omega

@[simp] theorem carriesOperands_predict {addr : Nat} :
    CarriesOperands cw (.predict addr) ↔ slice cw 59 32 = 0 ∧ slice cw 31 0 = addr := by
  simp only [CarriesOperands, Instr.wellFormed, addrFits_iff, Instr.operandBits, slice]
  omega

@[simp] theorem carriesOperands_update {addr : Nat} {outcome : Bool} :
    CarriesOperands cw (.update addr outcome) ↔
      slice cw 59 33 = 0 ∧ slice cw 31 0 = addr ∧ bitAt cw 32 = outcome := by
  have := boolBit_le outcome
  simp only [CarriesOperands, Instr.wellFormed, addrFits_iff, Instr.operandBits, slice, bitAt_eq_iff]
  omega

@[simp] theorem carriesOperands_step {addr : Nat} {outcome : Bool} :
    CarriesOperands cw (.step addr outcome) ↔
      slice cw 59 33 = 0 ∧ slice cw 31 0 = addr ∧ bitAt cw 32 = outcome :=
  carriesOperands_update

@[simp] theorem carriesOperands_finish : CarriesOperands cw .finish ↔ slice cw 59 0 = 0 := by
  simp [CarriesOperands, Instr.wellFormed, Instr.operandBits, slice]

/-- Reads: SEL is the command's and every other operand bit is reserved (R77). -/
theorem operandBits_eq_sel_iff {sel : Nat} (hsel : sel < 2 ^ 4) :
    cw % 2 ^ 60 = sel ↔ slice cw 59 4 = 0 ∧ slice cw 3 0 = sel := by
  simp only [slice]
  omega

@[simp] theorem carriesOperands_rdTotal : CarriesOperands cw .rdTotal ↔ slice cw 59 4 = 0 ∧ slice cw 3 0 = 0 :=
  (and_iff_right rfl).trans (operandBits_eq_sel_iff (by decide))

@[simp] theorem carriesOperands_rdMiss : CarriesOperands cw .rdMiss ↔ slice cw 59 4 = 0 ∧ slice cw 3 0 = 1 :=
  (and_iff_right rfl).trans (operandBits_eq_sel_iff (by decide))

@[simp] theorem carriesOperands_rdStatus : CarriesOperands cw .rdStatus ↔ slice cw 59 4 = 0 ∧ slice cw 3 0 = 2 :=
  (and_iff_right rfl).trans (operandBits_eq_sel_iff (by decide))

@[simp] theorem carriesOperands_rdConfig : CarriesOperands cw .rdConfig ↔ slice cw 59 4 = 0 ∧ slice cw 3 0 = 3 :=
  (and_iff_right rfl).trans (operandBits_eq_sel_iff (by decide))

@[simp] theorem carriesOperands_abortCfg {info : Nat} :
    CarriesOperands cw (.abortCfg info) ↔ slice cw 59 8 = 0 ∧ slice cw 7 4 = info ∧ slice cw 3 0 = 1 := by
  simp only [CarriesOperands, Instr.wellFormed, infoFits_iff, Instr.operandBits, slice]
  omega

@[simp] theorem carriesOperands_abortRec {info : Nat} :
    CarriesOperands cw (.abortRec info) ↔ slice cw 59 8 = 0 ∧ slice cw 7 4 = info ∧ slice cw 3 0 = 2 := by
  simp only [CarriesOperands, Instr.wellFormed, infoFits_iff, Instr.operandBits, slice]
  omega

/-! The decoder of each format answers the format's command, with the operands the word carries. -/

theorem decodeCfgGshare_eq_command_iff : decodeCfgGshare cw = .command i ↔
    ∃ wa, i = .cfgGshare wa ∧ CarriesOperands cw i := by
  simp only [decodeCfgGshare, ifReservedZero_eq_command_iff, beq_iff_eq]
  constructor
  · rintro ⟨h, rfl⟩
    exact ⟨_, rfl, by simp [h]⟩
  · rintro ⟨wa, rfl, hc⟩
    obtain ⟨h, rfl⟩ := carriesOperands_cfgGshare.1 hc
    exact ⟨h, rfl⟩

theorem decodeCfgTourn_eq_command_iff : decodeCfgTourn cw = .command i ↔
    ∃ wa wb wc, i = .cfgTourn wa wb wc ∧ CarriesOperands cw i := by
  simp only [decodeCfgTourn, ifReservedZero_eq_command_iff, Bool.and_eq_true, beq_iff_eq, and_assoc]
  constructor
  · rintro ⟨h1, h2, h3, rfl⟩
    exact ⟨_, _, _, rfl, by simp [h1, h2, h3]⟩
  · rintro ⟨wa, wb, wc, rfl, hc⟩
    obtain ⟨⟨h1, h2, h3⟩, rfl, rfl, rfl⟩ := carriesOperands_cfgTourn.1 hc
    exact ⟨h1, h2, h3, rfl⟩

theorem decodePredict_eq_command_iff : decodePredict cw = .command i ↔
    ∃ addr, i = .predict addr ∧ CarriesOperands cw i := by
  simp only [decodePredict, ifReservedZero_eq_command_iff, beq_iff_eq]
  constructor
  · rintro ⟨h, rfl⟩
    exact ⟨_, rfl, by simp [h]⟩
  · rintro ⟨addr, rfl, hc⟩
    obtain ⟨h, rfl⟩ := carriesOperands_predict.1 hc
    exact ⟨h, rfl⟩

theorem decodeUpdate_eq_command_iff : decodeUpdate cw = .command i ↔
    ∃ addr outcome, i = .update addr outcome ∧ CarriesOperands cw i := by
  simp only [decodeUpdate, ifReservedZero_eq_command_iff, beq_iff_eq]
  constructor
  · rintro ⟨h, rfl⟩
    exact ⟨_, _, rfl, by simp [h]⟩
  · rintro ⟨addr, outcome, rfl, hc⟩
    obtain ⟨h, rfl, rfl⟩ := carriesOperands_update.1 hc
    exact ⟨h, rfl⟩

theorem decodeStep_eq_command_iff : decodeStep cw = .command i ↔
    ∃ addr outcome, i = .step addr outcome ∧ CarriesOperands cw i := by
  simp only [decodeStep, ifReservedZero_eq_command_iff, beq_iff_eq]
  constructor
  · rintro ⟨h, rfl⟩
    exact ⟨_, _, rfl, by simp [h]⟩
  · rintro ⟨addr, outcome, rfl, hc⟩
    obtain ⟨h, rfl, rfl⟩ := carriesOperands_step.1 hc
    exact ⟨h, rfl⟩

theorem decodeFinish_eq_command_iff : decodeFinish cw = .command i ↔ i = .finish ∧ CarriesOperands cw i := by
  simp only [decodeFinish, ifReservedZero_eq_command_iff, beq_iff_eq]
  constructor
  · rintro ⟨h, rfl⟩
    exact ⟨rfl, carriesOperands_finish.2 h⟩
  · rintro ⟨rfl, hc⟩
    exact ⟨carriesOperands_finish.1 hc, rfl⟩

theorem decodeRead_eq_command_iff : decodeRead cw = .command i ↔
    (i = .rdTotal ∨ i = .rdMiss ∨ i = .rdStatus ∨ i = .rdConfig) ∧ CarriesOperands cw i := by
  unfold decodeRead
  constructor
  · intro h
    split_ifs at h with h0 h1 h2 h3
    · obtain ⟨hr, rfl⟩ := ifReservedZero_eq_command_iff.1 h
      simpa [h0] using hr
    · obtain ⟨hr, rfl⟩ := ifReservedZero_eq_command_iff.1 h
      simpa [h1] using hr
    · obtain ⟨hr, rfl⟩ := ifReservedZero_eq_command_iff.1 h
      simpa [h2] using hr
    · obtain ⟨hr, rfl⟩ := ifReservedZero_eq_command_iff.1 h
      simpa [h3] using hr
  · rintro ⟨rfl | rfl | rfl | rfl, hc⟩
    · simp [carriesOperands_rdTotal.1 hc]
    · simp [carriesOperands_rdMiss.1 hc]
    · simp [carriesOperands_rdStatus.1 hc]
    · simp [carriesOperands_rdConfig.1 hc]

theorem decodeAbort_eq_command_iff : decodeAbort cw = .command i ↔
    ∃ info, (i = .abortCfg info ∨ i = .abortRec info) ∧ CarriesOperands cw i := by
  unfold decodeAbort
  constructor
  · intro h
    split_ifs at h with h1 h2
    · obtain ⟨hr, rfl⟩ := ifReservedZero_eq_command_iff.1 h
      exact ⟨_, .inl rfl, by simpa [h1] using hr⟩
    · obtain ⟨hr, rfl⟩ := ifReservedZero_eq_command_iff.1 h
      exact ⟨_, .inr rfl, by simpa [h2] using hr⟩
  · rintro ⟨info, rfl | rfl, hc⟩
    · simp [carriesOperands_abortCfg.1 hc]
    · simp [carriesOperands_abortRec.1 hc]

/-- A word is a command's exactly when it carries the command's opcode and operands (R83). -/
theorem decodeBits_eq_command_iff : decodeBits cw = .command i ↔
    slice cw 63 60 = i.opcode ∧ CarriesOperands cw i := by
  unfold decodeBits
  generalize slice cw 63 60 = op
  dsimp only
  constructor
  · intro h
    split_ifs at h with h1 h2 h4 h5 h6 h7 h8 hA
    · obtain ⟨_, rfl, hc⟩ := decodeCfgGshare_eq_command_iff.1 h
      exact ⟨h1, hc⟩
    · obtain ⟨_, _, _, rfl, hc⟩ := decodeCfgTourn_eq_command_iff.1 h
      exact ⟨h2, hc⟩
    · obtain ⟨_, rfl, hc⟩ := decodePredict_eq_command_iff.1 h
      exact ⟨h4, hc⟩
    · obtain ⟨_, _, rfl, hc⟩ := decodeUpdate_eq_command_iff.1 h
      exact ⟨h5, hc⟩
    · obtain ⟨_, _, rfl, hc⟩ := decodeStep_eq_command_iff.1 h
      exact ⟨h6, hc⟩
    · obtain ⟨rfl, hc⟩ := decodeFinish_eq_command_iff.1 h
      exact ⟨h7, hc⟩
    · obtain ⟨rfl | rfl | rfl | rfl, hc⟩ := decodeRead_eq_command_iff.1 h <;> exact ⟨h8, hc⟩
    · obtain ⟨_, rfl | rfl, hc⟩ := decodeAbort_eq_command_iff.1 h <;> exact ⟨hA, hc⟩
  · rintro ⟨rfl, hc⟩
    cases i with
    | cfgGshare wa => exact decodeCfgGshare_eq_command_iff.2 ⟨wa, rfl, hc⟩
    | cfgTourn wa wb wc => exact decodeCfgTourn_eq_command_iff.2 ⟨wa, wb, wc, rfl, hc⟩
    | predict addr => exact decodePredict_eq_command_iff.2 ⟨addr, rfl, hc⟩
    | update addr outcome => exact decodeUpdate_eq_command_iff.2 ⟨addr, outcome, rfl, hc⟩
    | step addr outcome => exact decodeStep_eq_command_iff.2 ⟨addr, outcome, rfl, hc⟩
    | finish => exact decodeFinish_eq_command_iff.2 ⟨rfl, hc⟩
    | rdTotal | rdMiss | rdStatus | rdConfig => exact decodeRead_eq_command_iff.2 ⟨by simp, hc⟩
    | abortCfg info => exact decodeAbort_eq_command_iff.2 ⟨info, .inl rfl, hc⟩
    | abortRec info => exact decodeAbort_eq_command_iff.2 ⟨info, .inr rfl, hc⟩

end

/-! ### The encoder (30_encoding.md R71) -/

open Laws.EncodedFields in
theorem encodedFields (i : Instr) : Statement i := by
  cases i with
  | cfgGshare => exact cfgGshare _
  | cfgTourn => exact cfgTourn _ _ _
  | predict => exact predict _
  | update => exact update _ _
  | step => exact step _ _
  | finish => exact finish
  | rdTotal => exact rdTotal
  | rdMiss => exact rdMiss
  | rdStatus => exact rdStatus
  | rdConfig => exact rdConfig
  | abortCfg => exact abortCfg _
  | abortRec => exact abortRec _

theorem decode_eq_command_iff_fields {w : Word} {i : Instr} :
    decode w = .command i ↔ w.toNat / 2 ^ 60 = i.opcode ∧ CarriesOperands w.toNat i := by
  rw [decode, decodeBits_eq_command_iff, slice_opcode]

/-- A word decodes to `i` exactly when `i` is well formed and `w` is its word: both carry the opcode and operand bits
of `i`, which make up the whole word. -/
theorem decode_eq_command_iff {w : Word} {i : Instr} :
    decode w = .command i ↔ i.wellFormed = true ∧ encode i = w := by
  rw [decode_eq_command_iff_fields]
  constructor
  · rintro ⟨hop, hwf, hbits⟩
    obtain ⟨hop', hbits'⟩ := encodedFields i hwf
    exact ⟨hwf, BitVec.eq_of_toNat_eq (by omega)⟩
  · rintro ⟨hwf, rfl⟩
    obtain ⟨hop, hbits⟩ := encodedFields i hwf
    exact ⟨hop, hwf, hbits⟩

/-- Settles O1, by `decode_eq_command_iff`. -/
theorem decodeOfEncode : Obligations.DecodeOfEncode := fun _ hwf => decode_eq_command_iff.2 ⟨hwf, rfl⟩

/-- Settles O2, by the other direction of `decode_eq_command_iff`. -/
theorem encodeOfDecode : Obligations.EncodeOfDecode := fun _ _ => decode_eq_command_iff.1

/-! ### The rows of the opcode table (30_encoding.md R83) -/

/-- A mask splits at any bit position: the two parts of the word are masked apart. -/
theorem and_mask_split (v k high low : Nat) (hlow : low < 2 ^ k) :
    v &&& (2 ^ k * high + low) = 2 ^ k * (v / 2 ^ k &&& high) + (v % 2 ^ k &&& low) := by
  have hdiv : (2 ^ k * high + low) / 2 ^ k = high := by
    rw [Nat.mul_add_div (Nat.two_pow_pos k), Nat.div_eq_of_lt hlow, Nat.add_zero]
  have hmod : (2 ^ k * high + low) % 2 ^ k = low := by
    rw [Nat.mul_add_mod, Nat.mod_eq_of_lt hlow]
  rw [← Nat.div_add_mod (v &&& (2 ^ k * high + low)) (2 ^ k), Nat.and_div_two_pow, Nat.and_mod_two_pow, hdiv, hmod]

/-- A mask that fixes every bit from `k` up leaves those bits of the word. -/
theorem and_highMask {v k : Nat} (hk : k ≤ 64) (hv : v < 2 ^ 64) : v &&& (2 ^ 64 - 2 ^ k) = 2 ^ k * (v / 2 ^ k) := by
  have hmask : 2 ^ 64 - 2 ^ k = 2 ^ k * (2 ^ (64 - k) - 1) + 0 := by
    rw [Nat.mul_sub, ← pow_add, Nat.add_sub_cancel' hk, Nat.mul_one, Nat.add_zero]
  have hdiv : v / 2 ^ k < 2 ^ (64 - k) := by
    rw [Nat.div_lt_iff_lt_mul (Nat.two_pow_pos k), ← pow_add, Nat.sub_add_cancel hk]
    exact hv
  rw [hmask, and_mask_split _ _ _ _ (Nat.two_pow_pos k), Nat.and_two_pow_sub_one_eq_mod, Nat.mod_eq_of_lt hdiv,
    Nat.and_zero, Nat.add_zero]

/-- The mask of ABORT.CFG and ABORT.REC leaves free the field INFO, bits 7 .. 4. -/
theorem and_abortMask {v : Nat} (hv : v < 2 ^ 64) :
    v &&& 0xFFFFFFFFFFFFFF0F = 2 ^ 8 * (v / 2 ^ 8) + v % 2 ^ 4 := by
  rw [show 0xFFFFFFFFFFFFFF0F = 2 ^ 8 * (2 ^ 56 - 1) + (2 ^ 4 - 1) by decide, and_mask_split _ _ _ _ (by decide),
    Nat.and_two_pow_sub_one_eq_mod, Nat.and_two_pow_sub_one_eq_mod]
  omega

/-- The mask of CFG.TOURN leaves free its three width fields. -/
theorem and_tournMask {v : Nat} (hv : v < 2 ^ 64) :
    v &&& 0xFFFFFFFFFFC0C0C0 = 2 ^ 22 * (v / 2 ^ 22) + 2 ^ 14 * slice v 15 14 + 2 ^ 6 * slice v 7 6 := by
  rw [show 0xFFFFFFFFFFC0C0C0 = 2 ^ 22 * (2 ^ 42 - 1) + (2 ^ 14 * (2 ^ 2 - 1) + (2 ^ 6 * (2 ^ 2 - 1) + 0)) by decide,
    and_mask_split _ 22 _ _ (by decide), and_mask_split _ 14 _ _ (by decide), and_mask_split _ 6 _ _ (by decide)]
  simp only [Nat.and_two_pow_sub_one_eq_mod, Nat.and_zero, slice]
  omega

/-- A word carries the opcode `op`, and every bit from `k` up below it is 0: the test of a mask `2^64 - 2^k`. -/
theorem covers_highMask_iff {w : Word} {row : TableRow} (k op : Nat) (hk : k < 60)
    (hmask : row.mask.toNat = 2 ^ 64 - 2 ^ k) (hpattern : row.pattern.toNat = 2 ^ 60 * op) :
    w &&& row.mask = row.pattern ↔ w.toNat / 2 ^ 60 = op ∧ slice w.toNat 59 k = 0 := by
  have hdiv : w.toNat / 2 ^ 60 = w.toNat / 2 ^ k / 2 ^ (60 - k) := by
    rw [Nat.div_div_eq_div_mul, ← pow_add, Nat.add_sub_cancel' hk.le]
  have hop' : 2 ^ 60 * op = 2 ^ k * (2 ^ (60 - k) * op) := by
    rw [← Nat.mul_assoc, ← pow_add, Nat.add_sub_cancel' hk.le]
  have hwidth : 59 - k + 1 = 60 - k := by omega
  rw [← BitVec.toNat_inj, BitVec.toNat_and, hmask, hpattern, and_highMask (by omega) w.isLt, hop',
    Nat.mul_right_inj (Nat.two_pow_pos k).ne', slice, hwidth, hdiv]
  constructor
  · intro h
    rw [h]
    exact ⟨Nat.mul_div_cancel_left _ (Nat.two_pow_pos _), Nat.mul_mod_right _ _⟩
  · rintro ⟨rfl, hmod⟩
    exact (Nat.mul_div_cancel' (Nat.dvd_of_mod_eq_zero hmod)).symm

/-- The mask of CFG.TOURN. -/
theorem covers_cfgTourn_iff {w : Word} : w &&& opcodeTable[1].mask = opcodeTable[1].pattern ↔
    w.toNat / 2 ^ 60 = 0x2 ∧ slice w.toNat 59 22 = 0 ∧ slice w.toNat 15 14 = 0 ∧ slice w.toNat 7 6 = 0 := by
  rw [← BitVec.toNat_inj, BitVec.toNat_and]
  change w.toNat &&& 0xFFFFFFFFFFC0C0C0 = 0x2000000000000000 ↔ _
  rw [and_tournMask w.isLt]
  simp only [slice]
  omega

/-- The masks of ABORT.CFG and ABORT.REC. -/
theorem covers_abort_iff {w : Word} {row : TableRow} (sel : Nat) (hmask : row.mask = 0xFFFFFFFFFFFFFF0F)
    (hpattern : row.pattern.toNat = 2 ^ 60 * 0xA + sel) (hsel : sel < 2 ^ 4) :
    w &&& row.mask = row.pattern ↔
      w.toNat / 2 ^ 60 = 0xA ∧ slice w.toNat 59 8 = 0 ∧ slice w.toNat 3 0 = sel := by
  rw [← BitVec.toNat_inj, BitVec.toNat_and, hmask, hpattern]
  change w.toNat &&& 0xFFFFFFFFFFFFFF0F = _ ↔ _
  rw [and_abortMask w.isLt]
  simp only [slice]
  omega

/-- A row that fixes every bit covers its pattern alone. -/
theorem covers_fixed_iff {w : Word} {row : TableRow} (hmask : row.mask = BitVec.allOnes 64) :
    w &&& row.mask = row.pattern ↔ w = row.pattern := by
  rw [hmask, BitVec.and_allOnes]

/-- The row of a command in spec/opcode_table.json. -/
def Instr.row : Instr → TableRow
  | .cfgGshare _ => opcodeTable[0]
  | .cfgTourn _ _ _ => opcodeTable[1]
  | .predict _ => opcodeTable[2]
  | .update _ _ => opcodeTable[3]
  | .step _ _ => opcodeTable[4]
  | .finish => opcodeTable[5]
  | .rdTotal => opcodeTable[6]
  | .rdMiss => opcodeTable[7]
  | .rdStatus => opcodeTable[8]
  | .rdConfig => opcodeTable[9]
  | .abortCfg _ => opcodeTable[10]
  | .abortRec _ => opcodeTable[11]

theorem Instr.row_mem (i : Instr) : i.row ∈ opcodeTable := by
  cases i <;> exact List.getElem_mem _

theorem Instr.row_mnemonic (i : Instr) : i.row.mnemonic = i.mnemonic := by
  cases i <;> rfl

/-- The word of a command is covered by the command's row. -/
theorem covers_of_decode {w : Word} {i : Instr} (h : decode w = .command i) : w &&& i.row.mask = i.row.pattern := by
  obtain ⟨hop, hc⟩ := decode_eq_command_iff_fields.1 h
  cases i with
  | cfgGshare =>
    exact (covers_highMask_iff 6 _ (by decide) rfl rfl).2 ⟨hop, (carriesOperands_cfgGshare.1 hc).1⟩
  | cfgTourn => exact covers_cfgTourn_iff.2 ⟨hop, (carriesOperands_cfgTourn.1 hc).1⟩
  | predict =>
    exact (covers_highMask_iff 32 _ (by decide) rfl rfl).2 ⟨hop, (carriesOperands_predict.1 hc).1⟩
  | update =>
    exact (covers_highMask_iff 33 _ (by decide) rfl rfl).2 ⟨hop, (carriesOperands_update.1 hc).1⟩
  | step =>
    exact (covers_highMask_iff 33 _ (by decide) rfl rfl).2 ⟨hop, (carriesOperands_step.1 hc).1⟩
  | finish | rdTotal | rdMiss | rdStatus | rdConfig =>
    exact (covers_fixed_iff rfl).2 (decode_eq_command_iff.1 h).2.symm
  | abortCfg =>
    obtain ⟨hr, -, hsel⟩ := carriesOperands_abortCfg.1 hc
    exact (covers_abort_iff 1 rfl rfl (by decide)).2 ⟨hop, hr, hsel⟩
  | abortRec =>
    obtain ⟨hr, -, hsel⟩ := carriesOperands_abortRec.1 hc
    exact (covers_abort_iff 2 rfl rfl (by decide)).2 ⟨hop, hr, hsel⟩

/-- A word that a row covers carries the operands of one of the row's commands. -/
theorem exists_decode_of_covers {w : Word} {row : TableRow} (hrow : row ∈ opcodeTable)
    (h : w &&& row.mask = row.pattern) : ∃ i, decode w = .command i ∧ i.row = row := by
  simp only [opcodeTable, List.mem_cons, List.not_mem_nil, or_false] at hrow
  rcases hrow with rfl | rfl | rfl | rfl | rfl | rfl | rfl | rfl | rfl | rfl | rfl | rfl
  case _ =>
    obtain ⟨hop, hr⟩ := (covers_highMask_iff 6 0x1 (by decide) rfl rfl).1 h
    exact ⟨.cfgGshare _, decode_eq_command_iff_fields.2 ⟨hop, carriesOperands_cfgGshare.2 ⟨hr, rfl⟩⟩, rfl⟩
  case _ =>
    obtain ⟨hop, hr⟩ := covers_cfgTourn_iff.1 h
    exact ⟨.cfgTourn _ _ _, decode_eq_command_iff_fields.2 ⟨hop, carriesOperands_cfgTourn.2 ⟨hr, rfl, rfl, rfl⟩⟩, rfl⟩
  case _ =>
    obtain ⟨hop, hr⟩ := (covers_highMask_iff 32 0x4 (by decide) rfl rfl).1 h
    exact ⟨.predict _, decode_eq_command_iff_fields.2 ⟨hop, carriesOperands_predict.2 ⟨hr, rfl⟩⟩, rfl⟩
  case _ =>
    obtain ⟨hop, hr⟩ := (covers_highMask_iff 33 0x5 (by decide) rfl rfl).1 h
    exact ⟨.update _ _, decode_eq_command_iff_fields.2 ⟨hop, carriesOperands_update.2 ⟨hr, rfl, rfl⟩⟩, rfl⟩
  case _ =>
    obtain ⟨hop, hr⟩ := (covers_highMask_iff 33 0x6 (by decide) rfl rfl).1 h
    exact ⟨.step _ _, decode_eq_command_iff_fields.2 ⟨hop, carriesOperands_step.2 ⟨hr, rfl, rfl⟩⟩, rfl⟩
  case _ => exact ⟨.finish, decode_eq_command_iff.2 ⟨rfl, ((covers_fixed_iff rfl).1 h).symm⟩, rfl⟩
  case _ => exact ⟨.rdTotal, decode_eq_command_iff.2 ⟨rfl, ((covers_fixed_iff rfl).1 h).symm⟩, rfl⟩
  case _ => exact ⟨.rdMiss, decode_eq_command_iff.2 ⟨rfl, ((covers_fixed_iff rfl).1 h).symm⟩, rfl⟩
  case _ => exact ⟨.rdStatus, decode_eq_command_iff.2 ⟨rfl, ((covers_fixed_iff rfl).1 h).symm⟩, rfl⟩
  case _ => exact ⟨.rdConfig, decode_eq_command_iff.2 ⟨rfl, ((covers_fixed_iff rfl).1 h).symm⟩, rfl⟩
  case _ =>
    obtain ⟨hop, hr, hsel⟩ := (covers_abort_iff 1 rfl rfl (by decide)).1 h
    exact ⟨.abortCfg _, decode_eq_command_iff_fields.2 ⟨hop, carriesOperands_abortCfg.2 ⟨hr, rfl, hsel⟩⟩, rfl⟩
  case _ =>
    obtain ⟨hop, hr, hsel⟩ := (covers_abort_iff 2 rfl rfl (by decide)).1 h
    exact ⟨.abortRec _, decode_eq_command_iff_fields.2 ⟨hop, carriesOperands_abortRec.2 ⟨hr, rfl, hsel⟩⟩, rfl⟩

/-- Settles O3: a word is covered by the row of the command it decodes to, and by no other, since decoding answers one
command. -/
theorem decodeAgreesWithTable : Obligations.DecodeAgreesWithTable := by
  intro w
  refine ⟨fun i hd => ⟨i.row, i.row_mem, i.row_mnemonic, covers_of_decode hd⟩, fun row hrow h => ?_,
    fun row hrow row' hrow' h h' => ?_⟩
  · obtain ⟨i, hd, rfl⟩ := exists_decode_of_covers hrow h
    exact ⟨i, hd, i.row_mnemonic.symm⟩
  · obtain ⟨i, hd, rfl⟩ := exists_decode_of_covers hrow h
    obtain ⟨j, hd', rfl⟩ := exists_decode_of_covers hrow' h'
    rw [hd, Decoded.command.injEq] at hd'
    rw [hd']

/-- Settles O4: each word is the command's own word, so `decode_eq_command_iff` decodes it. -/
theorem specWordsDecode : Obligations.SpecWordsDecode := by
  simp only [Obligations.SpecWordsDecode, decode_eq_command_iff]
  decide

end Sys2Proof
end

section
/-! Proofs of the statements on whole-machine rules: the two invariants, the parameters, the configuration, the chooser
table, and that every command completes. Each shared write is said to keep the invariant once; a performed command is
one of these writes by the inversion `Performed`, and a step performs one by the inversion `Stepped`. -/

namespace Sys2Proof.Machine

/-! ### One step (20_memory.md R58) -/

section
variable {s : State} {rest : List HostInput}

theorem step_idle (hin : s.inputs = []) : step s = .next s := by
  simp only [step, fetch_idle hin]

theorem step_hardwareReset (hin : s.inputs = .hardwareReset :: rest) :
    step s = .next (s.withInputs rest).hardwareReset := by
  simp only [step, fetch_hardwareReset hin]

theorem step_command {cw : Word} {i : Instr} (hin : s.inputs = .command cw :: rest) (hd : decode cw = .command i) :
    step s = exec i (s.withInputs rest) := by
  simp only [step, fetch_command hin hd]

theorem step_illegal_word {cw : Word} {cause : IllegalCause} (hin : s.inputs = .command cw :: rest)
    (hd : decode cw = .illegal cause) : step s = .next (performIllegal cause (s.withInputs rest)) := by
  simp only [step, fetch_illegal hin hd]

end

/-- Settles O6, by `step_command`. -/
theorem stepRunsDecodedCommand : Obligations.StepRunsDecodedCommand := fun _ _ _ _ => step_command

/-- Settles O7, by `step_idle`. -/
theorem nothingPresentedNothingHappens : Obligations.NothingPresentedNothingHappens := fun _ => step_idle

/-- Settles O9: every register is read off `State.hardwareReset`. -/
theorem hardwareResetStep : Obligations.HardwareResetStep := fun _ _ hin =>
  ⟨_, step_hardwareReset hin, rfl, rfl, rfl, rfl, rfl, rfl, rfl, rfl, rfl, rfl, rfl, rfl, rfl⟩

/-! ### The predictors' storage (10_state.md R31 to R37; 40_bitregister.md R103) -/

theorem GshareOk.construct (params : Params) (h : Nat) : GshareOk (Gshare.construct params h) :=
  ⟨Nat.two_pow_pos h, .filled _ _⟩

theorem TournamentOk.construct (params : Params) (g l p : Nat) : TournamentOk (Tournament.construct params g l p) :=
  ⟨Nat.two_pow_pos g, .filled _ _, .filled _ _, .filled _ _, .filled _ _, fun _ => Nat.two_pow_pos l⟩

theorem GshareOk.update {g : Gshare} (h : GshareOk g) (addr : Nat) (outcome : Bool) :
    GshareOk (g.update addr outcome) :=
  ⟨shiftIn_lt _ _ _, h.pht_ok.tblAdjust _ _⟩

theorem Tournament.cpt_ok_update {t : Tournament} (h : TournamentOk t) (addr : Nat) (outcome : Bool) :
    MemoryOk (2 ^ t.globalBits) (t.trainChooser addr outcome) := by
  by_cases hvotes : t.globalVote = t.localVote addr
  · rw [trainChooser_of_agree hvotes]
    exact h.cpt_ok
  · rw [trainChooser_of_differ hvotes]
    exact h.cpt_ok.tblAdjust _ _

/-- A write of a value below a bound keeps every cell of a canonical memory below it. -/
theorem Memory.read_write_lt {m : Memory Nat} (hm : m.wf = true) {bound v : Nat} (hv : v < bound)
    (h : ∀ j, m.read j < bound) (i j : Nat) : (m.write i v).read j < bound := by
  by_cases hj : j = i
  · rw [hj, m.read_write_same hm]
    exact hv
  · rw [m.read_write_other v hj]
    exact h j

theorem TournamentOk.update {t : Tournament} (h : TournamentOk t) (addr : Nat) (outcome : Bool) :
    TournamentOk (t.update addr outcome) where
  tghr_lt := shiftIn_lt _ _ _
  gpt_ok := h.gpt_ok.tblAdjust _ _
  cpt_ok := Tournament.cpt_ok_update h addr outcome
  lpt_ok := h.lpt_ok.tblAdjust _ _
  lhr_ok := h.lhr_ok.write (t.slot_lt addr) _
  lhr_lt := Memory.read_write_lt h.lhr_ok.canonical (shiftIn_lt _ _ _) h.lhr_lt _

/-- Training keeps the widths, so it keeps a variant legal. -/
theorem VariantOk.update {maxBits : Nat} {v : Variant} (h : VariantOk maxBits v) (addr : Nat) (outcome : Bool) :
    VariantOk maxBits (v.update addr outcome) := by
  cases v with
  | unconfigured => exact h
  | gshare g =>
    obtain ⟨hw, hg⟩ := h
    exact ⟨hw, hg.update addr outcome⟩
  | tourn t =>
    obtain ⟨hg, hl, hp, ht⟩ := h
    exact ⟨hg, hl, hp, ht.update addr outcome⟩

theorem Variant.update_eq_unconfigured_iff {v : Variant} {addr : Nat} {outcome : Bool} :
    v.update addr outcome = .unconfigured ↔ v = .unconfigured := by
  cases v <;> simp [Variant.update]

/-! ### The invariant of registers and storage -/

namespace Inv

variable {s : State} (h : Inv s)
include h

/-- The invariant does not speak of the response port. -/
theorem respond (status : BitVec 4) (data : Word) : Inv (s.respond status data) := { h with }

/-- Nor does it speak of the host's inputs. -/
theorem withInputs (rest : List HostInput) : Inv (s.withInputs rest) := { h with }

theorem raise {e : ErrKind} (he : e ≠ .noError) (info : BitVec 4) : Inv (s.raise e info) :=
  { h with
    err_iff := iff_of_false he (not_not_intro rfl)
    info_zero := fun h0 => absurd h0 he
    not_yet := nofun
    configured := fun hp => hp.elim nofun nofun }

theorem construct {v : Variant} (hp : s.phase = .uninitialized) (hne : v ≠ .unconfigured)
    (hv : VariantOk s.params.maxBits v) : Inv (s.construct v) :=
  { h with
    err_iff := iff_of_true (h.err_iff.2 (by simp [hp])) nofun
    not_yet := nofun
    configured := fun _ => hne
    no_records := fun h0 => absurd h0 hne
    variant_ok := hv }

/-- Training keeps whether there is a variant. -/
theorem train (addr : Nat) (outcome : Bool) : Inv (s.withVariant (s.variant.update addr outcome)) :=
  { h with
    not_yet := fun hp => Variant.update_eq_unconfigured_iff.2 (h.not_yet hp)
    configured := fun hp => Variant.update_eq_unconfigured_iff.not.2 (h.configured hp)
    no_records := fun h0 => h.no_records (Variant.update_eq_unconfigured_iff.1 h0)
    variant_ok := h.variant_ok.update addr outcome }

theorem count (hv : s.variant ≠ .unconfigured) (miss : Bool) : Inv (s.count miss) :=
  { h with
    mispred_le := Nat.add_le_add h.mispred_le (boolBit_le miss)
    no_records := fun h0 => absurd h0 hv }

theorem finish (hp : s.phase = .ready) : Inv s.finish :=
  { h with
    err_iff := iff_of_true (h.err_iff.2 (by simp [hp])) nofun
    not_yet := nofun
    configured := fun _ => h.configured (.inl hp) }

theorem hardwareReset : Inv s.hardwareReset where
  params_wf := h.params_wf
  err_iff := iff_of_true rfl nofun
  info_zero := fun _ => rfl
  mispred_le := Nat.le_refl 0
  not_yet := fun _ => rfl
  configured := fun hp => hp.elim nofun nofun
  no_records := fun _ => rfl
  variant_ok := trivial

/-- Every end of a command is one of the writes above. -/
theorem performed {t : State} {i : Instr} (ht : Performed s i t) : Inv t := by
  cases ht with
  | faulted => exact h.respond _ _
  | error e info _ he => exact h.raise he info
  | gshare wa hp hw => exact (h.construct (v := .gshare _) hp nofun ⟨hw, .construct _ _⟩).respond _ _
  | tourn wa wb wc hp ha hb hc =>
    exact (h.construct (v := .tourn _) hp nofun ⟨ha, hb, hc, .construct _ _ _ _⟩).respond _ _
  | predict => exact h.respond _ _
  | update addr outcome => exact (h.train addr outcome).respond _ _
  | step addr outcome prediction hp => exact ((h.count (h.configured (.inl hp)) _).train addr outcome).respond _ _
  | finish hp => exact (h.finish hp).respond _ _
  | read => exact h.respond _ _

end Inv

/-- Settles O40: the consumed input and a reset keep the invariant as every command does. -/
theorem stepKeepsInvariant : Obligations.StepKeepsInvariant := by
  intro s t h hstep
  cases stepped_of_step hstep with
  | idle => exact h
  | hardwareReset rest => exact (h.withInputs rest).hardwareReset
  | illegal cw rest cause => exact (h.withInputs rest).performed (performed_performIllegal cause _ .finish)
  | command cw rest i t _ _ ht => exact (h.withInputs rest).performed ht

/-! ### The invariant of the response port -/

/-- A raised error has a code, and Faulted is the only status above it (30_encoding.md R79). -/
theorem ErrKind.status_bounds (e : ErrKind) (he : e ≠ .noError) : 1 ≤ e.status.toNat ∧ e.status.toNat ≤ 5 := by
  cases e with
  | noError => exact absurd rfl he
  | configuration | malformedRecord | illegalCommand | phase => decide

/-- A response with status 0 outside phase 3. -/
theorem PortInv.respondOk {s : State} (hp : s.phase ≠ .faulted) (data : Word) : PortInv (s.respondOk data) where
  ok_unless_faulted := fun _ r hr => by cases hr; rfl
  faulted_status := fun hf => absurd hf hp

/-- A raised error answers with its own code (60_exceptions.md R181). -/
theorem PortInv.raise (s : State) {e : ErrKind} (he : e ≠ .noError) (info : BitVec 4) : PortInv (s.raise e info) where
  ok_unless_faulted := fun hf => absurd rfl hf
  faulted_status := fun _ =>
    have ⟨hlow, hhigh⟩ := e.status_bounds he
    ⟨_, rfl, hlow, hhigh, rfl⟩

/-- Whatever stood on the port, a performed command leaves it as the invariant says. -/
theorem PortInv.performed {s t : State} {i : Instr} (h : Performed s i t) : PortInv t := by
  cases h with
  | faulted hp =>
    have hstatus : 1 ≤ statusFaulted.toNat ∧ statusFaulted.toNat ≤ 5 := by decide
    exact ⟨fun hf => absurd hp hf, fun _ => ⟨_, rfl, hstatus.1, hstatus.2, rfl⟩⟩
  | error e info _ he => exact .raise s he info
  | gshare | tourn | finish => exact .respondOk (by simp) _
  | predict _ _ hp | update _ _ _ hp | step _ _ _ hp => exact .respondOk (by simp [hp]) _
  | read _ hp => exact .respondOk hp _

/-- Settles O41: only an idle step needs the invariant before it, for every other one writes the port. -/
theorem stepKeepsPortInvariant : Obligations.StepKeepsPortInvariant := by
  intro s t h hstep
  cases stepped_of_step hstep with
  | idle => exact h
  | hardwareReset => exact ⟨fun _ r hr => (nomatch hr), nofun⟩
  | illegal cw rest cause => exact .performed (performed_performIllegal cause _ .finish)
  | command cw rest i t _ _ ht => exact .performed ht

/-- Settles O42: the registers at reset are those after a hardware reset, and the port holds nothing. -/
theorem resetMeetsInvariants : Obligations.ResetMeetsInvariants :=
  ⟨{ params_wf := by decide, err_iff := by decide, info_zero := by decide, mispred_le := by decide,
     not_yet := by decide, configured := by decide, no_records := by decide, variant_ok := trivial },
   ⟨fun _ r hr => (nomatch hr), nofun⟩⟩

/-! ### The parameters (00_scope.md section 4) -/

theorem Performed.params_eq {s t : State} {i : Instr} (h : Performed s i t) : t.params = s.params := by
  cases h with
  | faulted | error | gshare | tourn | predict | update | step | finish | read => rfl

/-- Settles O37: no write of a command, and no reset, names the parameters. -/
theorem parametersAreFixed : Obligations.ParametersAreFixed := by
  intro s t hstep
  cases stepped_of_step hstep with
  | idle | hardwareReset => rfl
  | illegal cw rest cause => exact (performed_performIllegal cause (s.withInputs rest) .finish).params_eq
  | command cw rest i t _ _ ht => exact ht.params_eq

/-! ### Completion (70_reset_and_hazards.md R211) -/

/-- A frame completes if its own rule does. -/
theorem framed_completes {legalIn : Phase → Bool} {perform : State → Result} {s : State}
    (own : s.phase ≠ .faulted → legalIn s.phase = true → ∃ t, perform s = .next t) :
    ∃ t, framed legalIn perform s = .next t := by
  rcases framed_cases legalIn perform s with ⟨-, he⟩ | ⟨hp, hl, he⟩ | ⟨-, -, he⟩
  · exact ⟨_, he⟩
  · rw [he]
    exact own hp hl
  · exact ⟨_, he⟩

theorem configure_completes (widths : List Nat) (v : Variant) (s : State) : ∃ t, configure widths v s = .next t := by
  rcases configure_cases widths v s with ⟨_, _, he⟩ | ⟨_, he⟩ <;> exact ⟨_, he⟩

theorem exists_prediction {v : Variant} (h : v ≠ .unconfigured) (addr : Nat) : ∃ p, v.predict addr = some p :=
  Option.isSome_iff_exists.1 ((predict_isSome_iff v addr).2 h)

/-- With a variant in phase 1, PREDICT, UPDATE and STEP have a prediction to perform with. -/
theorem framed_withPrediction_completes {s : State} (h : s.phase = .ready → s.variant ≠ .unconfigured) (addr : Nat)
    (perform : Bool → State → State) : ∃ t, framed inReady (withPrediction addr perform) s = .next t := by
  refine framed_completes fun _ hl => ?_
  obtain ⟨p, hp⟩ := exists_prediction (h ((inReady_iff _).1 hl)) addr
  exact ⟨_, withPrediction_some hp⟩

theorem exec_completes {s : State} (h : s.phase = .ready → s.variant ≠ .unconfigured) (i : Instr) :
    ∃ t, exec i s = .next t := by
  cases i with
  | cfgGshare | cfgTourn => exact framed_completes fun _ _ => configure_completes _ _ s
  | predict addr | update addr | step addr => exact framed_withPrediction_completes h addr _
  | finish => exact framed_completes (perform := endRun) fun _ _ => ⟨_, rfl⟩
  | rdTotal | rdMiss | rdStatus | rdConfig => exact framed_completes (perform := answer _) fun _ _ => ⟨_, rfl⟩
  | abortCfg | abortRec => exact framed_completes (perform := report _ _) fun _ _ => ⟨_, rfl⟩

/-- Settles O43: the invariant gives a variant in phase 1, also once an input is consumed. -/
theorem everyCommandCompletes : Obligations.EveryCommandCompletes := by
  intro s h
  have hready : s.phase = .ready → s.variant ≠ .unconfigured := fun hp => h.configured (.inl hp)
  refine ⟨?_, exec_completes hready⟩
  cases hin : s.inputs with
  | nil => exact ⟨s, step_idle hin⟩
  | cons input rest =>
    cases input with
    | hardwareReset => exact ⟨_, step_hardwareReset hin⟩
    | command cw =>
      cases hd : decode cw with
      | illegal cause => exact ⟨_, step_illegal_word hin hd⟩
      | command i =>
        rw [step_command hin hd]
        exact exec_completes (s := s.withInputs rest) hready i

/-! ### What becomes of the variant -/

/-- The commands that train the predictor. -/
def Trains (i : Instr) (addr : Nat) (outcome : Bool) : Prop := i = .update addr outcome ∨ i = .step addr outcome

/-- A command keeps the variant, constructs one out of phase 0, or trains it in phase 1. -/
theorem Performed.variant_cases {s t : State} {i : Instr} (h : Performed s i t) :
    t.variant = s.variant ∨
    (s.phase = .uninitialized ∧ t.phase = .ready) ∨
    (s.phase = .ready ∧ ∃ a o, Trains i a o ∧ t.variant = s.variant.update a o) := by
  cases h with
  | faulted | error | predict | finish | read => exact .inl rfl
  | gshare _ hp | tourn _ _ _ hp => exact .inr (.inl ⟨hp, rfl⟩)
  | update addr outcome _ hp => exact .inr (.inr ⟨hp, addr, outcome, .inl rfl, rfl⟩)
  | step addr outcome _ hp => exact .inr (.inr ⟨hp, addr, outcome, .inr rfl, rfl⟩)

/-- The same choice for every step but a hardware reset. -/
theorem variant_cases_of_step {s t : State} (h : step s = .next t) (hr : s.inputs.head? ≠ some .hardwareReset) :
    t.variant = s.variant ∨
    (s.phase = .uninitialized ∧ t.phase = .ready) ∨
    (s.phase = .ready ∧ ∃ w i a o, s.inputs.head? = some (.command w) ∧ decode w = .command i ∧ Trains i a o ∧
      t.variant = s.variant.update a o) := by
  cases stepped_of_step h with
  | idle => exact .inl rfl
  | hardwareReset rest hin => simp [hin] at hr
  | illegal cw rest cause =>
    rcases performIllegal_cases cause (s.withInputs rest) with ⟨-, he⟩ | ⟨-, he⟩ <;> exact .inl (by rw [he]; rfl)
  | command cw rest i t hin hd ht =>
    have hw : s.inputs.head? = some (.command cw) := by rw [hin]; rfl
    rcases ht.variant_cases with hk | hc | ⟨hp, a, o, hi, hv⟩
    · exact .inl hk
    · exact .inr (.inl hc)
    · exact .inr (.inr ⟨hp, cw, i, a, o, hw, hd, hi, hv⟩)

/-! ### The configuration (10_state.md R28) -/

/-- The kind of a variant, as MODE codes it, and its widths. -/
def Variant.configuration : Variant → Nat × List Nat
  | .unconfigured => (0, [])
  | .gshare g => (1, [g.historyBits])
  | .tourn t => (2, [t.globalBits, t.localHistoryBits, t.pcIndexBits])

namespace Variant

variable {v : Variant}

@[simp] theorem configuration_update (v : Variant) (addr : Nat) (outcome : Bool) :
    (v.update addr outcome).configuration = v.configuration := by
  cases v <;> rfl

theorem configuration_eq_unconfigured_iff :
    v.configuration = Variant.unconfigured.configuration ↔ v = .unconfigured := by
  cases v <;> simp [configuration]

theorem configuration_eq_gshare_iff {g : Gshare} : v.configuration = (Variant.gshare g).configuration ↔
    ∃ g', v = .gshare g' ∧ g'.historyBits = g.historyBits := by
  cases v <;> simp [configuration]

theorem configuration_eq_tourn_iff {t : Tournament} : v.configuration = (Variant.tourn t).configuration ↔
    ∃ t', v = .tourn t' ∧ t'.globalBits = t.globalBits ∧ t'.localHistoryBits = t.localHistoryBits ∧
      t'.pcIndexBits = t.pcIndexBits := by
  cases v <;> simp [configuration]

/-- MODE and W0 to W2 are read off the configuration (R20). -/
theorem registers_of_configuration_eq {v' : Variant} (h : v'.configuration = v.configuration) :
    v'.mode = v.mode ∧ v'.w0 = v.w0 ∧ v'.w1 = v.w1 ∧ v'.w2 = v.w2 := by
  cases v with
  | unconfigured => simp [configuration_eq_unconfigured_iff.1 h]
  | gshare g =>
    obtain ⟨g', rfl, hh⟩ := configuration_eq_gshare_iff.1 h
    simp [mode, w0, w1, w2, hh]
  | tourn t =>
    obtain ⟨t', rfl, hg, hl, hp⟩ := configuration_eq_tourn_iff.1 h
    simp [mode, w0, w1, w2, hg, hl, hp]

end Variant

/-- Settles O35: training keeps the configuration, and in phase 0 the invariant leaves no variant to change. -/
theorem configurationIsImmutable : Obligations.ConfigurationIsImmutable := by
  intro s t hs h hr
  have hcases : t.variant.configuration = s.variant.configuration ∨
      (s.phase = .uninitialized ∧ t.phase = .ready) := by
    rcases variant_cases_of_step h hr with hk | hc | ⟨-, _, _, _, _, -, -, -, hv⟩
    · exact .inl (by rw [hk])
    · exact .inr hc
    · exact .inl (by rw [hv, Variant.configuration_update])
  rcases hcases with hkeep | ⟨hp, ht⟩
  · refine ⟨fun g hv => ?_, fun u hv => ?_, fun _ => Variant.registers_of_configuration_eq hkeep, fun hv hne => ?_⟩
      <;> rw [hv] at hkeep
    · exact Variant.configuration_eq_gshare_iff.1 hkeep
    · exact Variant.configuration_eq_tourn_iff.1 hkeep
    · exact absurd (Variant.configuration_eq_unconfigured_iff.1 hkeep) hne
  · have hnone := hs.not_yet hp
    exact ⟨fun g hv => by simp [hnone] at hv, fun u hv => by simp [hnone] at hv, fun hne => absurd hnone hne,
      fun _ _ => ⟨hp, ht⟩⟩

/-! ### The chooser table (43_tournament.md R145) -/

/-- Settles O38: CPT is what `trainChooser` leaves of it, which is CPT itself where the votes agree. -/
theorem chooserMovesOnlyOnDisagreement : Obligations.ChooserMovesOnlyOnDisagreement := by
  intro s t u u' h hs ht hr hp hcpt
  rcases variant_cases_of_step h hr with hk | ⟨hz, -⟩ | ⟨hready, w, i, a, o, hw, hd, hi, hv⟩
  · rw [hs, ht, Variant.tourn.injEq] at hk
    exact absurd (congrArg Tournament.cpt hk) hcpt
  · exact absurd hz hp
  · rw [hs, ht, Variant.update_tourn, Variant.tourn.injEq] at hv
    rw [hv, Tournament.update_cpt] at hcpt
    refine ⟨hready, w, a, o, hw, ?_, fun hagree => hcpt (Tournament.trainChooser_of_agree hagree o)⟩
    rcases hi with rfl | rfl
    · exact .inl hd
    · exact .inr hd

/-- A table whose every counter votes not-taken. -/
structure VotesNotTaken (m : Memory Counter) : Prop where
  canonical : m.wf = true
  low : ∀ i, (m.read i).toNat ≤ 1

namespace VotesNotTaken

theorem tblPredict {m : Memory Counter} (h : VotesNotTaken m) (bits index : Nat) : tblPredict bits m index = false :=
  Bool.eq_false_iff.2 fun hv => absurd (ctrPredict_eq_true_iff.1 hv) (by have := h.low (lookupIndex bits index); omega)

theorem filled {init : Counter} (h : init.toNat ≤ 1) : VotesNotTaken (Memory.filled init) := ⟨rfl, fun _ => h⟩

/-- A not-taken outcome moves a counter down, so a low counter stays low. -/
theorem tblAdjust {m : Memory Counter} (h : VotesNotTaken m) (bits index : Nat) :
    VotesNotTaken (tblAdjust bits m index false) where
  canonical := m.wf_write h.canonical _ _
  low j := by
    by_cases hj : j = lookupIndex bits index
    · rw [hj, read_tblAdjust_same h.canonical, ctrAdjust_false, toNat_satDec]
      have := h.low (lookupIndex bits index)
      omega
    · rw [read_tblAdjust_other m false hj]
      exact h.low j

end VotesNotTaken

/-- While both vote tables vote not-taken the votes agree, and not-taken outcomes keep it so. -/
theorem cpt_foldl_update_notTaken {t : Tournament} (hg : VotesNotTaken t.gpt) (hl : VotesNotTaken t.lpt)
    (addrs : List Nat) : (addrs.foldl (fun t a => t.update a false) t).cpt = t.cpt := by
  induction addrs generalizing t with
  | nil => rfl
  | cons a rest ih =>
    have hagree : t.globalVote = t.localVote a := (hg.tblPredict _ _).trans (hl.tblPredict _ _).symm
    calc (rest.foldl (fun t a => t.update a false) (t.update a false)).cpt
        = (t.update a false).cpt := ih (hg.tblAdjust _ _) (hl.tblAdjust _ _)
      _ = t.cpt := by rw [Tournament.update_cpt, Tournament.trainChooser_of_agree hagree]

/-- Settles O39: with INIT_CTR at most 1 a fresh tournament's vote tables vote not-taken everywhere. -/
theorem notTakenTraceKeepsChooser : Obligations.NotTakenTraceKeepsChooser := fun _ _ _ _ addrs hinit =>
  cpt_foldl_update_notTaken (.filled hinit) (.filled hinit) addrs

end Sys2Proof.Machine
end

section
/-! Proofs of the statements of 44_driver.md sections 3 to 6 and of 20_memory.md section 6: what each command leaves
unchanged, how STEP relates to PREDICT and UPDATE, and that aliased addresses agree. -/

namespace Sys2Proof.Machine

/-! ### Frames (44_driver.md section 6) -/

/-- The commands that write no predictor state and no total, however they end. -/
def LeavesPredictor : Instr → Prop
  | .cfgGshare _ => False
  | .cfgTourn _ _ _ => False
  | .predict _ => True
  | .update _ _ => False
  | .step _ _ => False
  | .finish => True
  | .rdTotal => True
  | .rdMiss => True
  | .rdStatus => True
  | .rdConfig => True
  | .abortCfg _ => True
  | .abortRec _ => True

theorem Performed.inputs_eq {s t : State} {i : Instr} (h : Performed s i t) : t.inputs = s.inputs := by
  cases h with
  | faulted | error | gshare | tourn | predict | update | step | finish | read => rfl

theorem Performed.predictor_eq {s t : State} {i : Instr} (h : Performed s i t) (hi : LeavesPredictor i) :
    t.variant = s.variant ∧ t.total = s.total ∧ t.mispred = s.mispred := by
  cases h with
  | faulted | error | predict | finish | read => exact ⟨rfl, rfl, rfl⟩
  | gshare | tourn | update | step => exact hi.elim

/-- PREDICT and the reads, unless they raise an error, write the response port alone. -/
theorem Performed.eq_respond {s t : State} {i : Instr} (h : Performed s i t) (hi : (∃ a, i = .predict a) ∨ Reads i)
    (hp : t.phase = s.phase) : ∃ status data, t = s.respond status data := by
  cases h with
  | faulted | predict | read => exact ⟨_, _, rfl⟩
  | error _ _ hf => exact absurd hp.symm hf
  | gshare | tourn | update | step | finish => simp [Reads] at hi

/-- A frame whose own rule does not read the response port does not read it either. -/
theorem framed_respond {legalIn : Phase → Bool} {perform : State → Result} {s : State} {status : BitVec 4} {data : Word}
    (h : perform (s.respond status data) = perform s) :
    framed legalIn perform (s.respond status data) = framed legalIn perform s := by
  rw [framed, framed, h]
  rfl

/-- PREDICT and the reads do not read the response port. -/
theorem exec_respond {i : Instr} (hi : (∃ a, i = .predict a) ∨ Reads i) (s : State) (status : BitVec 4) (data : Word) :
    exec i (s.respond status data) = exec i s := by
  rcases hi with ⟨a, rfl⟩ | rfl | rfl | rfl | rfl <;> exact framed_respond rfl

/-- Settles O44: PREDICT and the reads, performed on the state they left, answer it again by `exec_respond`. -/
theorem frameOfReadsAndReports : Obligations.FrameOfReadsAndReports := by
  intro s t i addr info hi h
  have hperf := performed_of_exec h
  have hleaves : LeavesPredictor i := by
    rcases hi with rfl | rfl | rfl | rfl | rfl | rfl | rfl | rfl <;> trivial
  obtain ⟨hvariant, htotal, hmispred⟩ := hperf.predictor_eq hleaves
  refine ⟨hperf.params_eq, hvariant, htotal, hmispred, hperf.inputs_eq, fun hi hp => ?_⟩
  have hanswers : (∃ a, i = .predict a) ∨ Reads i := hi.imp (fun h => ⟨addr, h⟩) id
  obtain ⟨status, data, rfl⟩ := hperf.eq_respond hanswers hp
  exact ⟨rfl, by rw [exec_respond hanswers, h]⟩

/-- Settles O45: a CFG command constructs and is then in phase 1, or leaves the variant. -/
theorem frameOfConfiguration : Obligations.FrameOfConfiguration := by
  intro s t i wa wb wc hi h
  have hperf := performed_of_exec h
  cases hperf with
  | faulted hp => exact ⟨rfl, rfl, rfl, rfl, fun _ => rfl, fun _ => ⟨rfl, rfl⟩⟩
  | error => exact ⟨rfl, rfl, rfl, rfl, fun _ => rfl, nofun⟩
  | gshare | tourn => exact ⟨rfl, rfl, rfl, rfl, fun hp => absurd rfl hp, fun _ => ⟨rfl, rfl⟩⟩
  | read _ _ hr => rcases hi with rfl | rfl <;> simp [Reads] at hr
  | predict | update | step | finish => simp at hi

/-- UPDATE and STEP train the variant or leave it; only STEP counts, and only an error leaves the phase. -/
theorem Performed.training_frame {s t : State} {i : Instr} {addr : Nat} {outcome : Bool} (h : Performed s i t)
    (hi : Trains i addr outcome) :
    (i = .update addr outcome → t.total = s.total ∧ t.mispred = s.mispred) ∧
    (t.phase ≠ .faulted → t.phase = s.phase ∧ t.err = s.err ∧ t.errInfo = s.errInfo) ∧
    (t.phase = .faulted → t.variant = s.variant ∧ t.total = s.total ∧ t.mispred = s.mispred) ∧
    (t.variant = s.variant ∨ t.variant = s.variant.update addr outcome) := by
  cases h with
  | faulted => exact ⟨fun _ => ⟨rfl, rfl⟩, fun _ => ⟨rfl, rfl, rfl⟩, fun _ => ⟨rfl, rfl, rfl⟩, .inl rfl⟩
  | error => exact ⟨fun _ => ⟨rfl, rfl⟩, fun hp => absurd rfl hp, fun _ => ⟨rfl, rfl, rfl⟩, .inl rfl⟩
  | update a o _ hp =>
    obtain ⟨rfl, rfl⟩ : a = addr ∧ o = outcome := by simpa [Trains] using hi
    exact ⟨fun _ => ⟨rfl, rfl⟩, fun _ => ⟨rfl, rfl, rfl⟩, fun hf => by simp [train, hp] at hf, .inr rfl⟩
  | step a o _ hp =>
    obtain ⟨rfl, rfl⟩ : a = addr ∧ o = outcome := by simpa [Trains] using hi
    exact ⟨nofun, fun _ => ⟨rfl, rfl, rfl⟩, fun hf => by simp [performRecord, hp] at hf, .inr rfl⟩
  | read _ _ hr => rcases hi with rfl | rfl <;> simp [Reads] at hr
  | gshare | tourn | predict | finish => simp [Trains] at hi

/-- Settles O46: the predictor after is `g` or `g.update addr outcome`, which moves one counter. -/
theorem frameOfGshareTraining : Obligations.FrameOfGshareTraining := by
  intro s t i addr outcome g hi hs h
  have hperf := performed_of_exec h
  obtain ⟨htotals, hphase, herror, hvariant⟩ := hperf.training_frame hi
  refine ⟨hperf.params_eq, hperf.inputs_eq, htotals, hphase, herror, ?_⟩
  rw [hs, Variant.update_gshare] at hvariant
  rcases hvariant with hv | hv
  · exact ⟨g, hv, rfl, fun _ _ => rfl⟩
  · exact ⟨g.update addr outcome, hv, rfl, fun j hj => g.read_update_other outcome hj⟩

/-- Chooser training moves at most the counter the global index selects, in range or not. -/
theorem Tournament.read_trainChooser_other_lookup (t : Tournament) (addr : Nat) (outcome : Bool) {j : Nat}
    (hj : j ≠ lookupIndex t.globalBits t.gIndex) : (t.trainChooser addr outcome).read j = t.cpt.read j := by
  by_cases hvotes : t.globalVote = t.localVote addr
  · rw [trainChooser_of_agree hvotes]
  · rw [trainChooser_of_differ hvotes]
    exact read_tblAdjust_other t.cpt _ hj

/-- Settles O47: the predictor after is `u` or `u.update addr outcome`, which writes each memory at one index. -/
theorem frameOfTournamentTraining : Obligations.FrameOfTournamentTraining := by
  intro s t i addr outcome u hi hs h
  have hperf := performed_of_exec h
  obtain ⟨htotals, hphase, herror, hvariant⟩ := hperf.training_frame hi
  refine ⟨hperf.params_eq, hperf.inputs_eq, htotals, hphase, herror, ?_⟩
  rw [hs, Variant.update_tourn] at hvariant
  rcases hvariant with hv | hv
  · exact ⟨u, hv, rfl, rfl, rfl, fun _ _ => ⟨rfl, rfl⟩, fun _ _ => rfl, fun _ _ => rfl⟩
  · exact ⟨u.update addr outcome, hv, rfl, rfl, rfl,
      fun j hj => ⟨read_tblAdjust_other u.gpt outcome hj, u.read_trainChooser_other_lookup addr outcome hj⟩,
      fun j hj => read_tblAdjust_other u.lpt outcome hj, fun j hj => u.read_update_lhr_other outcome hj⟩

/-! ### STEP against PREDICT and UPDATE (44_driver.md section 3) -/

/-- The response of a prediction says whether STEP counts a misprediction. -/
theorem boolBit_mispredicted (prediction outcome : Bool) :
    boolBit (mispredicted prediction outcome) =
      if some (Response.mk statusOk (predictionData prediction)) = some ⟨0, if outcome then 1 else 0⟩ then 0
      else 1 := by
  cases prediction <;> cases outcome <;> decide

/-- Settles O23: the three commands perform with the one prediction of the state before them. -/
theorem stepIsPredictThenUpdate : Obligations.StepIsPredictThenUpdate := by
  intro s addr outcome hp hv
  obtain ⟨prediction, hpred⟩ := exists_prediction hv addr
  exact ⟨answerPrediction prediction s, _, _, exec_predict_of_ready hp hpred,
    exec_update_of_ready (s := answerPrediction prediction s) hp hpred, exec_step_of_ready hp hpred, rfl, rfl, rfl, rfl,
    rfl, rfl, congrArg (s.mispred + ·) (boolBit_mispredicted prediction outcome), rfl⟩

/-- The predictor state after a command in phase 1: UPDATE and STEP train it, nothing else does. -/
def Variant.after (v : Variant) : Instr → Variant
  | .update addr outcome => v.update addr outcome
  | .step addr outcome => v.update addr outcome
  | _ => v

/-- PREDICT, UPDATE or STEP. -/
def PredictsOrTrains (i : Instr) : Prop :=
  (∃ a, i = .predict a) ∨ (∃ a o, i = .update a o) ∨ (∃ a o, i = .step a o)

/-- PREDICT, UPDATE and STEP stay in phase 1, with a variant that only training changes. -/
theorem exec_predictsOrTrains {s : State} (hp : s.phase = .ready) (hv : s.variant ≠ .unconfigured) {i : Instr}
    (hi : PredictsOrTrains i) :
    ∃ t, exec i s = .next t ∧ t.phase = .ready ∧ t.variant = s.variant.after i ∧ t.variant ≠ .unconfigured := by
  rcases hi with ⟨a, rfl⟩ | ⟨a, o, rfl⟩ | ⟨a, o, rfl⟩ <;> obtain ⟨prediction, hpred⟩ := exists_prediction hv a
  · exact ⟨_, exec_predict_of_ready hp hpred, hp, rfl, hv⟩
  · exact ⟨_, exec_update_of_ready hp hpred, hp, rfl, Variant.update_eq_unconfigured_iff.not.2 hv⟩
  · exact ⟨_, exec_step_of_ready hp hpred, hp, rfl, Variant.update_eq_unconfigured_iff.not.2 hv⟩

/-- A sequence of such commands completes, and its predictor state is that of its training commands in order. -/
theorem run_predictsOrTrains {s : State} (hp : s.phase = .ready) (hv : s.variant ≠ .unconfigured)
    {commands : List Instr} (hc : ∀ i ∈ commands, PredictsOrTrains i) :
    ∃ t, commands.foldlM (fun u i => nextOf (exec i u)) s = some t ∧
      t.variant = commands.foldl Variant.after s.variant := by
  induction commands generalizing s with
  | nil => exact ⟨s, rfl, rfl⟩
  | cons i rest ih =>
    obtain ⟨u, hu, hpu, hvu, hne⟩ := exec_predictsOrTrains hp hv (hc i List.mem_cons_self)
    obtain ⟨t, ht, hvt⟩ := ih hpu hne fun j hj => hc j (List.mem_cons_of_mem _ hj)
    refine ⟨t, ?_, by rw [hvt, hvu, List.foldl_cons]⟩
    rw [List.foldlM_cons, hu]
    exact ht

/-- Settles O24: dropping the commands that `Variant.after` ignores changes no predictor state. -/
theorem predictorStateIgnoresPredicts : Obligations.PredictorStateIgnoresPredicts := by
  intro s commands hp hv hc run trains
  obtain ⟨t, ht, hvt⟩ := run_predictsOrTrains hp hv hc
  obtain ⟨t', ht', hvt'⟩ := run_predictsOrTrains hp hv fun i hi => hc i (List.mem_of_mem_filter hi)
  refine ⟨t, t', ht, ht', ?_⟩
  have hskip (v : Variant) (i : Instr) : (if trains i = true then v.after i else v) = v.after i := by
    cases i <;> rfl
  rw [hvt, hvt', List.foldl_filter]
  simp only [hskip]

/-! ### Aliasing (20_memory.md R64) -/

theorem framed_congr {legalIn : Phase → Bool} {perform perform' : State → Result} {s : State}
    (h : perform s = perform' s) : framed legalIn perform s = framed legalIn perform' s := by
  rw [framed, framed, h]

theorem withPrediction_congr {a b : Nat} {perform perform' : Bool → State → State} {s : State}
    (hpred : s.variant.predict a = s.variant.predict b) (h : ∀ p, perform p s = perform' p s) :
    withPrediction a perform s = withPrediction b perform' s := by
  simp only [withPrediction, hpred, h]

/-- The address reaches the block through the variant's prediction and training alone. -/
theorem exec_congr_of_variant {s : State} {a b : Nat} {outcome : Bool}
    (hpred : s.variant.predict a = s.variant.predict b)
    (hupdate : s.variant.update a outcome = s.variant.update b outcome) :
    exec (.predict a) s = exec (.predict b) s ∧
    exec (.update a outcome) s = exec (.update b outcome) s ∧
    exec (.step a outcome) s = exec (.step b outcome) s :=
  ⟨framed_congr (withPrediction_congr hpred fun _ => rfl),
    framed_congr (withPrediction_congr hpred fun _ => by rw [train, train, hupdate]),
    framed_congr (withPrediction_congr hpred fun _ => by rw [performRecord, performRecord, hupdate])⟩

/-- GSHARE.INDEX reads the low `h` bits of the address (42_gshare.md R126). -/
theorem Gshare.index_congr {g : Gshare} {a b : Nat} (h : a % 2 ^ g.historyBits = b % 2 ^ g.historyBits) :
    g.index a = g.index b := by
  rw [index, index, Nat.xor_mod_two_pow, Nat.xor_mod_two_pow, h]

/-- Settles O52: gshare uses the address in its index, tournament in its slot. -/
theorem aliasedAddressesAgree : Obligations.AliasedAddressesAgree := by
  rintro s a b outcome (⟨g, hv, hab⟩ | ⟨t, hv, hab⟩)
  · have hindex := Gshare.index_congr hab
    refine exec_congr_of_variant ?_ ?_ <;> rw [hv]
    · simp only [Variant.predict_gshare, Gshare.predict, hindex]
    · simp only [Variant.update_gshare, Gshare.update, hindex]
  · have hslot : t.slot a = t.slot b := hab
    have hlocal : t.localReg a = t.localReg b := congrArg t.lhr.read hslot
    have hvote : t.localVote a = t.localVote b := by
      rw [Tournament.localVote, Tournament.localVote, Tournament.lIndex, Tournament.lIndex, hlocal]
    refine exec_congr_of_variant ?_ ?_ <;> rw [hv]
    · simp only [Variant.predict_tourn, Tournament.predict, hvote]
    · simp only [Variant.update_tourn, Tournament.update, Tournament.trainChooser, Tournament.lIndex, hvote, hlocal,
        hslot]

/-! ### Tables, indices and reads -/

/-- Settles O17, from the reads of an adjusted table at the selected cell and at any other. -/
theorem tableAdjustChangesOneCounter : Obligations.TableAdjustChangesOneCounter := by
  intro bits index j m taken hm
  refine ⟨rfl, ?_⟩
  split_ifs with hj
  · rw [hj]
    exact read_tblAdjust_same hm bits index taken
  · exact read_tblAdjust_other m taken hj

/-- Settles O51: the reduction reaches both operands of the XOR, and leaves GHR as it is in range. -/
theorem gshareIndexInRange : Obligations.GshareIndexInRange := by
  intro g addr hghr
  refine ⟨rfl, ?_, g.index_lt addr, fun h0 => ?_⟩
  · rw [Gshare.index, asIndex, Nat.xor_mod_two_pow, Nat.mod_eq_of_lt hghr]
  · have := g.index_lt addr
    rw [h0] at this
    omega

/-- Settles O26, by `framed_answer`; below `2^64` the data is the total itself. -/
theorem readTotals : Obligations.ReadTotals := by
  intro s hp
  have hdata (overflow : Nat → Word) {n : Nat} (hn : n < 2 ^ 64) : (totalData overflow n).toNat = n := by
    rw [totalData_of_lt overflow hn, BitVec.toNat_ofNat, Nat.mod_eq_of_lt hn]
  exact ⟨⟨_, framed_answer _ hp, hdata _⟩, ⟨_, framed_answer _ hp, hdata _⟩⟩

theorem exec_rdConfig_of_configData {s : State} {data : Word} (hp : s.phase ≠ .faulted) (hdata : s.configData = data) :
    exec .rdConfig s = .next { s with response := some ⟨0, data⟩ } := by
  rw [← hdata]
  exact framed_answer State.configData hp

/-- Settles O15: CFG.TOURN constructs a variant of the given widths, from which sizes and RD.CONFIG's data follow. -/
theorem nineTenTenSizes : Obligations.NineTenTenSizes := by
  intro s hp hmax
  obtain ⟨t, hexec, hg, hl, hpc, -⟩ := cfgTournConstructs s 9 10 10 hp (by decide) (by omega) (by decide) (by omega)
    (by decide) (by omega)
  refine ⟨t, _, hexec, rfl, ?_, ?_, ?_, ?_, ?_⟩
  · rw [hg]; rfl
  · rw [hl]; rfl
  · rw [hpc]; rfl
  · rw [Variant.storageBits, hg, hl, hpc]; rfl
  · refine exec_rdConfig_of_configData (by simp) ?_
    rw [State.configData, Variant.w0, Variant.w1, Variant.w2, hg, hl, hpc]; rfl

end Sys2Proof.Machine
end

section
/-! Proofs of the statements on histories: 40_bitregister.md sections 2 and 4, 42_gshare.md section 5, 10_state.md
section 5. A history register is the number whose binary digits are the bits shifted in, the last one least significant,
reduced to its width; GHR and each local history register is such a register. The misprediction rate stands here too. -/

namespace Sys2Proof.Machine

/-! ### The closed form of a history register (40_bitregister.md section 4) -/

theorem shiftIn_eq_toNat (w value : Nat) (bit : Bool) : shiftIn w value bit = (2 * value + bit.toNat) % 2 ^ w := by
  rw [shiftIn_eq, boolBit_eq_toNat]

/-- From 0 a register holds the bits shifted in as binary digits, reduced to its width. -/
theorem foldl_shiftIn (w : Nat) (bits : List Bool) :
    bits.foldl (shiftIn w) 0 = Nat.ofDigits 2 (bits.reverse.map Bool.toNat) % 2 ^ w := by
  induction bits using List.reverseRecOn with
  | nil => simp
  | append_singleton bits bit ih =>
    rw [List.foldl_append, List.foldl_cons, List.foldl_nil, ih, shiftIn_eq_toNat, List.reverse_append,
      List.reverse_singleton, List.singleton_append, List.map_cons, Nat.ofDigits_cons, Nat.add_comm bit.toNat]
    simp [Nat.add_mod, Nat.mul_mod]

/-- The first `w` binary digits as the sum of their place values. -/
theorem sum_places_eq_ofDigits (w : Nat) (digits : List Bool) :
    ((List.range (min digits.length w)).map fun k => (digits.getD k false).toNat * 2 ^ k).sum =
      Nat.ofDigits 2 ((digits.map Bool.toNat).take w) := by
  induction digits generalizing w with
  | nil => simp
  | cons d ds ih =>
    cases w with
    | zero => simp
    | succ w =>
      have hplace (k : Nat) : (ds.getD k false).toNat * 2 ^ (k + 1) = 2 * ((ds.getD k false).toNat * 2 ^ k) := by ring
      rw [List.length_cons, Nat.succ_min_succ, List.range_succ_eq_map, List.map_cons, List.sum_cons, List.map_map,
        List.map_cons, List.take_succ_cons, Nat.ofDigits_cons, ← ih, ← List.sum_map_mul_left]
      simp only [Function.comp_def, List.getD_cons_zero, List.getD_cons_succ, Nat.succ_eq_add_one, hplace, pow_zero,
        mul_one]

/-- Settles O48: reducing to the width keeps the first `w` digits. -/
theorem historyHoldsLastBits : Obligations.HistoryHoldsLastBits := by
  refine ⟨shiftIn_eq_toNat, fun w bits => ?_⟩
  have hdigit : ∀ d ∈ bits.reverse.map Bool.toNat, d < 2 := by
    intro d hd
    obtain ⟨b, -, rfl⟩ := List.mem_map.1 hd
    exact b.toNat_lt
  rw [foldl_shiftIn, Nat.ofDigits_mod_pow_eq_ofDigits_take w (by decide) _ hdigit, ← sum_places_eq_ofDigits,
    List.length_reverse]

/-! ### The registers of the predictors -/

theorem Gshare.foldl_update_ghr (g : Gshare) (records : List (Nat × Bool)) :
    (records.foldl (fun g r => g.update r.1 r.2) g).ghr =
      (records.map Prod.snd).foldl (shiftIn g.historyBits) g.ghr := by
  induction records generalizing g with
  | nil => rfl
  | cons r rest ih => exact ih (g.update r.1 r.2)

/-- Settles O49: GHR is a history register of width `h` that every outcome is shifted into. -/
theorem ghrHoldsLastOutcomes : Obligations.GhrHoldsLastOutcomes := by
  intro params h records
  have hclosed := historyHoldsLastBits.2 h (records.map Prod.snd)
  rw [List.length_map] at hclosed
  rw [Gshare.foldl_update_ghr]
  exact hclosed

/-- An update shifts its outcome into the register of its own slot and into no other. -/
theorem Tournament.read_update_lhr {t : Tournament} (h : t.lhr.wf = true) (addr : Nat) (outcome : Bool) (n : Nat) :
    (t.update addr outcome).lhr.read n =
      if t.slot addr = n then shiftIn t.localHistoryBits (t.lhr.read n) outcome else t.lhr.read n := by
  split_ifs with hn
  · rw [← hn]
    exact t.lhr.read_write_same h _ _
  · exact t.read_update_lhr_other outcome (Ne.symm hn)

theorem Tournament.foldl_update_lhr {t : Tournament} (h : t.lhr.wf = true) (records : List (Nat × Bool)) (n : Nat) :
    (records.foldl (fun t r => t.update r.1 r.2) t).lhr.read n =
      ((records.filter fun r => t.slot r.1 == n).map Prod.snd).foldl (shiftIn t.localHistoryBits) (t.lhr.read n) := by
  induction records generalizing t with
  | nil => rfl
  | cons r rest ih =>
    have hwf : (t.update r.1 r.2).lhr.wf = true := t.lhr.wf_write h _ _
    rw [List.foldl_cons, ih hwf, read_update_lhr h, List.filter_cons]
    by_cases hn : t.slot r.1 = n
    · rw [if_pos hn, if_pos (beq_iff_eq.2 hn)]
      rfl
    · rw [if_neg hn, if_neg (beq_iff_eq.not.2 hn)]
      rfl

/-- Settles O50: the register of slot `n` starts at 0 and takes the outcomes of its own updates. -/
theorem localHistoryHoldsSlotOutcomes : Obligations.LocalHistoryHoldsSlotOutcomes := by
  intro params g l p n records mine _
  have hshift : shiftIn l = fun v b => (2 * v + b.toNat) % 2 ^ l := by
    funext v b
    exact shiftIn_eq_toNat l v b
  rw [← hshift]
  exact Tournament.foldl_update_lhr (Memory.wf_filled 0) records n

/-! ### The misprediction rate (44_driver.md R165) -/

/-- Settles O57: the bounds are those of MISPRED under the invariant. -/
theorem missRateIsQuotient : Obligations.MissRateIsQuotient := by
  intro s
  refine ⟨fun h0 => if_pos h0, fun hpos => ?_⟩
  have hpos' : (0 : Rat) < s.total := by exact_mod_cast hpos
  refine ⟨_, if_neg hpos.ne', div_mul_cancel₀ _ hpos'.ne', fun hs => ⟨by positivity, ?_⟩⟩
  rw [div_le_one hpos']
  exact_mod_cast hs.mispred_le

end Sys2Proof.Machine
end

section
/-! Proofs of the statements of 30_encoding.md section 5 on the text forms: numerals, trace lines, the lines of a trace
text and the trace's commands. A line's form is said once as what `parseLine` reads of it (`recordForm_iff`). -/

namespace Sys2Proof.Machine.FrontEnd

/-! ### Numerals (30_encoding.md R88, R90) -/

theorem decimalDigit_eq_some_iff (c : Char) (d : Nat) :
    decimalDigit c = some d ↔ d < 10 ∧ c.toNat = '0'.toNat + d := by
  rw [decimalDigit, show '0'.toNat = 48 from rfl]
  split_ifs with h
  · rw [Option.some.injEq]
    omega
  · simp only [false_iff]
    omega

theorem hexDigit_eq_some_iff (c : Char) (d : Nat) : hexDigit c = some d ↔
    (d < 10 ∧ c.toNat = '0'.toNat + d) ∨
      (10 ≤ d ∧ d < 16 ∧ (c.toNat + 10 = 'a'.toNat + d ∨ c.toNat + 10 = 'A'.toNat + d)) := by
  rw [hexDigit, show '0'.toNat = 48 from rfl, show 'a'.toNat = 97 from rfl, show 'A'.toNat = 65 from rfl]
  split_ifs with h0 ha hA
  · rw [Option.some.injEq]
    omega
  · rw [Option.some.injEq]
    omega
  · rw [Option.some.injEq]
    omega
  · simp only [false_iff]
    omega

/-- A part of value `acc` stands above the digits read after it. -/
theorem numeralFrom_eq_some_iff {base acc value : Nat} {digit : Char → Option Nat} {text : List Char} :
    numeralFrom base digit acc text = some value ↔
      ∃ digits : List Nat, text.map digit = digits.map some ∧
        value = Nat.ofDigits base (digits.reverse ++ [acc]) := by
  induction text generalizing acc with
  | nil =>
    rw [numeralFrom, Option.some.injEq]
    constructor
    · rintro rfl
      exact ⟨[], rfl, by simp⟩
    · rintro ⟨ds, hds, rfl⟩
      obtain rfl := List.map_eq_nil_iff.1 hds.symm
      simp
  | cons c cs ih =>
    have hstep (d : Nat) (ds : List Nat) : Nat.ofDigits base ((d :: ds).reverse ++ [acc]) =
        Nat.ofDigits base (ds.reverse ++ [acc * base + d]) := by
      simp only [List.reverse_cons, Nat.ofDigits_append, Nat.ofDigits_singleton, List.length_append,
        List.length_reverse, List.length_singleton, pow_succ]
      ring
    rw [numeralFrom]
    split
    · next d hd =>
      rw [ih]
      constructor
      · rintro ⟨ds, hds, rfl⟩
        exact ⟨d :: ds, by simp [hd, hds], (hstep d ds).symm⟩
      · rintro ⟨digits, hdigits, rfl⟩
        obtain ⟨e, ds, rfl, he, hds⟩ := List.map_eq_cons_iff.1 hdigits.symm
        rw [hd, Option.some.injEq] at he
        exact ⟨ds, hds.symm, by rw [he, hstep]⟩
    · next hd =>
      simp only [reduceCtorEq, false_iff]
      rintro ⟨digits, hdigits, -⟩
      obtain ⟨e, ds, rfl, he, -⟩ := List.map_eq_cons_iff.1 hdigits.symm
      rw [hd] at he
      cases he

theorem numeral_eq_some_iff {base value : Nat} {digit : Char → Option Nat} {text : List Char} :
    numeral base digit text = some value ↔
      ∃ digits : List Nat, digits ≠ [] ∧ text.map digit = digits.map some ∧
        value = Nat.ofDigits base digits.reverse := by
  have htop (ds : List Nat) : Nat.ofDigits base (ds.reverse ++ [0]) = Nat.ofDigits base ds.reverse := by
    simp [Nat.ofDigits_append]
  cases text with
  | nil =>
    simp only [numeral, reduceCtorEq, false_iff]
    rintro ⟨ds, hne, hds, -⟩
    exact hne (List.map_eq_nil_iff.1 hds.symm)
  | cons c cs =>
    simp only [numeral, numeralFrom_eq_some_iff, htop]
    refine exists_congr fun ds => ⟨fun ⟨hds, hv⟩ => ⟨?_, hds, hv⟩, fun ⟨_, hds, hv⟩ => ⟨hds, hv⟩⟩
    rintro rfl
    cases hds

/-- Settles O58: the digits by their codes, the value by what is read after a part of value 0. -/
theorem numeralIsPositional : Obligations.NumeralIsPositional :=
  ⟨decimalDigit_eq_some_iff, hexDigit_eq_some_iff, fun _ _ _ _ => numeral_eq_some_iff⟩

/-! ### Trace lines (30_encoding.md R90, R91) -/

theorem isHex_of_mem_numeral {digits : List Char} {addr : Nat} (h : numeral 16 hexDigit digits = some addr) :
    ∀ c ∈ digits, isHex c = true := fun _ hc =>
  Option.isSome_iff_ne_none.2 fun hnone => numeral_notMem hnone h hc

/-- A text whose second character is neither `x` nor `X` stays whole. -/
theorem withoutPrefix_eq_self {text : List Char} (h : ∀ c ∈ text.tail.head?, c ≠ 'x' ∧ c ≠ 'X') :
    withoutPrefix text = text := by
  unfold withoutPrefix
  split
  · exact absurd rfl (h 'x' rfl).1
  · exact absurd rfl (h 'X' rfl).2
  · rfl

/-- The form's `0x` or `0X` is taken off and nothing after it, since digits and a blank begin with neither. -/
theorem withoutPrefix_append {lead digits rest : List Char} {b : Char}
    (hlead : lead = [] ∨ lead = ['0', 'x'] ∨ lead = ['0', 'X']) (hdigits : ∀ c ∈ digits, isHex c = true)
    (hne : digits ≠ []) (hb : b = ' ' ∨ b = '\t') :
    withoutPrefix (lead ++ (digits ++ b :: rest)) = digits ++ b :: rest := by
  rcases hlead with rfl | rfl | rfl
  · refine withoutPrefix_eq_self fun c hc => ?_
    obtain ⟨d, ds, rfl⟩ := List.exists_cons_of_ne_nil hne
    cases ds with
    | nil =>
      obtain rfl : b = c := by simpa using hc
      rcases hb with rfl | rfl <;> decide
    | cons e es =>
      obtain rfl : e = c := by simpa using hc
      have hhex := hdigits e (by simp)
      exact ⟨fun hx => absurd (hx ▸ hhex) (by decide), fun hX => absurd (hX ▸ hhex) (by decide)⟩
  · rfl
  · rfl

/-- The record form is what `parseLine` looks for: a numeral and an outcome field after the optional `0x` or `0X`. -/
theorem recordForm_iff {line : List Char} {addr : Nat} {outcome : Bool} : RecordForm line addr outcome ↔
    numeral 16 hexDigit ((withoutPrefix line).takeWhile isHex) = some addr ∧
      outcomeField ((withoutPrefix line).dropWhile isHex) = some outcome := by
  constructor
  · rintro ⟨lead, digits, blanks, trail, cr, rfl, hlead, haddr, hne, hblanks, htrail, hcr⟩
    have hdigits := isHex_of_mem_numeral haddr
    have hdigitsNe : digits ≠ [] := by
      rintro rfl
      cases haddr
    obtain ⟨b, bs, rfl⟩ := List.exists_cons_of_ne_nil hne
    have hb := hblanks b List.mem_cons_self
    have hbody := withoutPrefix_append (rest := bs ++ (if outcome then '1' else '0') :: (trail ++ cr)) hlead hdigits
      hdigitsNe hb
    have hhead : isHex b = false := by rcases hb with rfl | rfl <;> decide
    obtain ⟨htake, hdrop⟩ := takeWhile_dropWhile_append (p := isHex)
      (rest := b :: (bs ++ (if outcome then '1' else '0') :: (trail ++ cr))) hdigits (by simp [hhead])
    simp only [List.append_assoc, List.cons_append, hbody, htake, hdrop]
    exact ⟨haddr, (outcomeField_iff _ _).2
      ⟨b :: bs, trail ++ cr, rfl, hne, hblanks, (isLineEnd_iff _).2 ⟨trail, cr, rfl, htrail, hcr⟩⟩⟩
  · rintro ⟨haddr, houtcome⟩
    obtain ⟨lead, hline, hlead⟩ := withoutPrefix_cases line
    obtain ⟨blanks, tail, hrest, hne, hblanks, hend⟩ := (outcomeField_iff _ _).1 houtcome
    obtain ⟨trail, cr, rfl, htrail, hcr⟩ := (isLineEnd_iff _).1 hend
    refine ⟨lead, _, blanks, trail, cr, ?_, hlead, haddr, hne, hblanks, htrail, hcr⟩
    have hsplit := List.takeWhile_append_dropWhile (p := isHex) (l := withoutPrefix line)
    rw [hrest] at hsplit
    rw [← hsplit] at hline
    simpa using hline

theorem parseLine_of_recordForm {line : List Char} {addr : Nat} {outcome : Bool} (h : RecordForm line addr outcome) :
    parseLine line = if addr < 2 ^ 32 then .record addr outcome else .malformed addressInfo := by
  obtain ⟨haddr, houtcome⟩ := recordForm_iff.1 h
  simp only [parseLine, haddr, houtcome, addrFits_iff]

theorem parseLine_of_not_recordForm {line : List Char} (h : ∀ addr outcome, ¬ RecordForm line addr outcome) :
    parseLine line = .malformed syntaxInfo := by
  unfold parseLine
  split
  · next addr outcome haddr houtcome => exact absurd (recordForm_iff.2 ⟨haddr, houtcome⟩) (h addr outcome)
  · rfl

/-- Settles O54: a line has one record form or none, and `parseLine` answers by which. -/
theorem traceLineForm : Obligations.TraceLineForm := by
  intro line
  by_cases hform : ∃ addr outcome, RecordForm line addr outcome
  · obtain ⟨a, o, h⟩ := hform
    have hunique (addr : Nat) (outcome : Bool) : RecordForm line addr outcome ↔ a = addr ∧ o = outcome := by
      obtain ⟨ha, ho⟩ := recordForm_iff.1 h
      rw [recordForm_iff, ha, ho, Option.some.injEq, Option.some.injEq]
    simp only [hunique, parseLine_of_recordForm h]
    split_ifs with hlt
    · refine ⟨fun addr outcome => ?_, iff_of_false nofun ?_, iff_of_false nofun fun hnone => hnone a o ⟨rfl, rfl⟩⟩
      · rw [Line.record.injEq, iff_self_and]
        rintro ⟨rfl, -⟩
        exact hlt
      · rintro ⟨_, _, ⟨rfl, -⟩, hwide⟩
        exact absurd hlt (Nat.not_lt.2 hwide)
    · refine ⟨fun addr outcome => iff_of_false nofun ?_, iff_of_true rfl ⟨a, o, ⟨rfl, rfl⟩, Nat.not_lt.1 hlt⟩,
        iff_of_false (by decide) fun hnone => hnone a o ⟨rfl, rfl⟩⟩
      rintro ⟨⟨rfl, -⟩, hlt'⟩
      exact hlt hlt'
  · simp only [not_exists] at hform
    simp [parseLine_of_not_recordForm hform, hform, syntaxInfo]

/-! ### The lines of a trace text (30_encoding.md R90) -/

/-- Settles O59: the pieces of a text are its lines, and an empty last piece is none. -/
theorem traceLinesOfText : Obligations.TraceLinesOfText := by
  intro text lines
  have hne := pieces_ne_nil '\n' text
  have hall := flatMap_pieces '\n' text
  constructor
  · rintro rfl
    unfold traceLines
    split_ifs with hlast
    · refine ⟨fun line hl => notMem_of_mem_pieces (List.mem_of_mem_dropLast hl), .inl ?_⟩
      rw [← List.dropLast_append_getLast? _ hlast] at hall
      simpa using hall.symm
    · refine ⟨fun line hl => notMem_of_mem_pieces hl, .inr ⟨_, ?_, List.getLast?_eq_some_getLast hne, hall.symm⟩⟩
      exact fun h0 => hlast (by rw [List.getLast?_eq_some_getLast hne, h0])
  · rintro ⟨hlines, rfl | ⟨last, hlast, hget, htext⟩⟩
    · have hpieces := pieces_flatMap hlines []
      rw [List.append_nil, pieces_of_notMem (List.not_mem_nil (a := '\n'))] at hpieces
      simp [traceLines, hpieces]
    · obtain ⟨init, rfl⟩ := List.getLast?_eq_some_iff.1 hget
      have htext : text ++ ['\n'] = init.flatMap (fun line => line ++ ['\n']) ++ last ++ ['\n'] := by
        simpa using htext
      have hpieces := pieces_flatMap (fun line hl => hlines line (List.mem_append_left _ hl)) last
      rw [← List.append_cancel_right htext, pieces_of_notMem (hlines last (by simp))] at hpieces
      simp [traceLines, hpieces, hlast]

/-! ### The trace's commands (30_encoding.md R92) -/

theorem traceCommands_append {records : List (List Char × Nat × Bool)}
    (h : ∀ r ∈ records, parseLine r.1 = .record r.2.1 r.2.2) (rest : List (List Char)) :
    traceCommands (records.map Prod.fst ++ rest) =
      (records.map fun r => Instr.step r.2.1 r.2.2) ++ traceCommands rest := by
  induction records with
  | nil => rfl
  | cons r records ih =>
    rw [List.map_cons, List.cons_append, traceCommands, h r List.mem_cons_self]
    exact congrArg _ (ih fun q hq => h q (List.mem_cons_of_mem _ hq))

/-- Settles O55, by `traceCommands_append` before the end of input or before the malformed line. -/
theorem traceCommandsStopAtMalformed : Obligations.TraceCommandsStopAtMalformed := by
  intro records h
  refine ⟨?_, fun line info rest hline => ?_⟩
  · rw [← List.append_nil (records.map Prod.fst), traceCommands_append h, traceCommands]
  · rw [traceCommands_append h, traceCommands, hline]

end Sys2Proof.Machine.FrontEnd
end

section
/-! Proofs of the statements of 30_encoding.md section 5 on the configuration string and the run. What the front end
reads in a string is one of three forms (`configString_cases`): a gshare or a tournament command with the string's
widths, or a report of the cause the checks of R89 find. The cause of the widths is the one the block's own check raises
(`configure_outcome`), which settles the string's outcome and with it the run. -/

namespace Sys2Proof.Machine.FrontEnd

/-! ### The parts of a configuration string (30_encoding.md R88) -/

/-- The name and the width pieces, with the colons between them, make up the string. -/
theorem configParts_eq_iff {text name : List Char} {widths : List (List Char)} :
    configParts text = (name, widths) ↔ pieces ':' text = name :: widths := by
  unfold configParts
  split
  · next hp => exact absurd hp (pieces_ne_nil _ _)
  · next hp => rw [hp, Prod.mk.injEq, List.cons.injEq]

theorem text_of_configParts {text name : List Char} {widths : List (List Char)}
    (h : configParts text = (name, widths)) :
    text ++ [':'] = (name :: widths).flatMap fun piece => piece ++ [':'] := by
  rw [← configParts_eq_iff.1 h, flatMap_pieces]

theorem configParts_gshare {hText : List Char} (h : ':' ∉ hText) :
    configParts ("gshare:".toList ++ hText) = ("gshare".toList, [hText]) := by
  rw [configParts_eq_iff, show "gshare:".toList ++ hText = "gshare".toList ++ ':' :: hText from rfl,
    pieces_append (by decide), pieces_of_notMem h]

theorem configParts_tourn {gText lText pText : List Char} (hg : ':' ∉ gText) (hl : ':' ∉ lText) (hp : ':' ∉ pText) :
    configParts ("tournament:".toList ++ gText ++ ':' :: lText ++ ':' :: pText) =
      ("tournament".toList, [gText, lText, pText]) := by
  rw [configParts_eq_iff, show "tournament:".toList ++ gText ++ ':' :: lText ++ ':' :: pText =
    "tournament".toList ++ ':' :: (gText ++ ':' :: (lText ++ ':' :: pText)) by simp,
    pieces_append (by decide), pieces_append hg, pieces_append hl, pieces_of_notMem hp]

/-- The names are the two of R88, each with its number of widths. -/
theorem widthCount_cases {name : List Char} {n : Nat} (h : widthCount name = some n) :
    (name = "gshare".toList ∧ n = 1) ∨ (name = "tournament".toList ∧ n = 3) := by
  unfold widthCount at h
  split_ifs at h with hg ht
  · cases h
    exact .inl ⟨hg, rfl⟩
  · cases h
    exact .inr ⟨ht, rfl⟩

/-! ### The checks of the widths (30_encoding.md R89 (3), (4)) -/

/-- The cause of the widths' values: any zero first, then any above `maxBits`. -/
def widthsCause (maxBits : Nat) (widths : List Nat) : Option Nat :=
  if widths.any fun w => w == 0 then some 3
  else if widths.any fun w => decide (maxBits < w) then some 4
  else none

/-- The block's own check raises the same cause (44_driver.md R152, R154). -/
theorem widthsError_eq_map_widthsCause (maxBits : Nat) (widths : List Nat) :
    widthsError maxBits widths = (widthsCause maxBits widths).map (BitVec.ofNat 4) := by
  unfold widthsError widthsCause
  split_ifs <;> rfl

/-- A first piece has the first value. -/
theorem decimals_cons_eq_some {t : List Char} {ts : List (List Char)} {widths : List Nat} :
    decimals (t :: ts) = some widths ↔ ∃ w ws, widths = w :: ws ∧ decimal t = some w ∧ decimals ts = some ws := by
  rw [decimals_eq_some, List.map_cons, eq_comm, List.map_eq_cons_iff]
  refine exists_congr fun w => exists_congr fun ws => and_congr_right fun _ => and_congr eq_comm ?_
  rw [eq_comm, decimals_eq_some]

theorem decimals_eq_none {texts : List (List Char)} (h : decimals texts = none) : texts.any notPositive = true := by
  induction texts with
  | nil => cases h
  | cons t ts ih =>
    rw [List.any_cons, Bool.or_eq_true]
    cases ht : decimal t with
    | none => exact .inl (by rw [notPositive, ht])
    | some v =>
      cases hts : decimals ts with
      | none => exact .inr (ih hts)
      | some vs => simp [decimals, ht, hts] at h

/-- A check of each piece by its value is that check of the values. -/
theorem any_of_decimals {p : List Char → Bool} {q : Nat → Bool} (hpq : ∀ t v, decimal t = some v → p t = q v)
    {texts : List (List Char)} {widths : List Nat} (h : decimals texts = some widths) :
    texts.any p = widths.any q := by
  induction texts generalizing widths with
  | nil =>
    cases h
    rfl
  | cons t ts ih =>
    obtain ⟨w, ws, rfl, hw, hws⟩ := decimals_cons_eq_some.1 h
    rw [List.any_cons, List.any_cons, hpq t w hw, ih hws]

section
variable {text name : List Char} {texts : List (List Char)} {widths : List Nat}
variable (hparts : configParts text = (name, texts)) (hcount : widthCount name = some texts.length)
include hparts hcount

theorem configCommand_of_decimals (hd : decimals texts = some widths) : configCommand text =
    if widths.all widthFits then cfgCommand widths
    else if widths.any fun w => w == 0 then .abortCfg 3
    else .abortCfg 4 := by
  simp [configCommand, hparts, hcount, hd]

theorem configCause_of_decimals (hd : decimals texts = some widths) (maxBits : Nat) :
    configCause maxBits text = widthsCause maxBits widths := by
  have hzero : texts.any notPositive = widths.any fun w => w == 0 :=
    any_of_decimals (fun t v ht => by rw [notPositive, ht]) hd
  have hwide : texts.any (exceeds maxBits) = widths.any fun w => decide (maxBits < w) :=
    any_of_decimals (fun t v ht => by rw [exceeds, ht]) hd
  simp [configCause, widthsCause, hparts, hcount, hzero, hwide]

end

/-- A width that does not fit its field is above every MAX_BITS, so the front end reports the cause of the checks. -/
theorem widthsCause_of_not_fit {maxBits : Nat} (hmax : maxBits ≤ 63) {widths : List Nat}
    (h : widths.all widthFits = false) :
    widthsCause maxBits widths = some (if widths.any fun w => w == 0 then 3 else 4) := by
  obtain ⟨w, hw, hfit⟩ := List.all_eq_false.1 h
  have hwide : (widths.any fun w => decide (maxBits < w)) = true := by
    rw [widthFits_iff] at hfit
    exact List.any_eq_true.2 ⟨w, hw, decide_eq_true (by omega)⟩
  rw [widthsCause, if_pos hwide]
  split_ifs <;> rfl

/-! ### What the front end reads in a string -/

/-- A string is reported with the cause of the checks, or names a predictor with widths that fit their fields. -/
theorem configString_cases {maxBits : Nat} (hmax : maxBits ≤ 63) (text : List Char) :
    (∃ cause, cause < 2 ^ 4 ∧ configCommand text = .abortCfg cause ∧ configCause maxBits text = some cause) ∨
    (∃ hText h, text = "gshare:".toList ++ hText ∧ decimal hText = some h ∧
      (Instr.cfgGshare h).wellFormed = true ∧ configCommand text = .cfgGshare h ∧
      configCause maxBits text = widthsCause maxBits [h]) ∨
    (∃ gText lText pText g l p, text = "tournament:".toList ++ gText ++ ':' :: lText ++ ':' :: pText ∧
      decimal gText = some g ∧ decimal lText = some l ∧ decimal pText = some p ∧
      (Instr.cfgTourn g l p).wellFormed = true ∧ configCommand text = .cfgTourn g l p ∧
      configCause maxBits text = widthsCause maxBits [g, l, p]) := by
  rcases hparts : configParts text with ⟨name, texts⟩
  cases hcount : widthCount name with
  | none => exact .inl ⟨1, by decide, by simp [configCommand, hparts, hcount], by simp [configCause, hparts, hcount]⟩
  | some n =>
    by_cases hlen : texts.length = n
    case neg =>
      exact .inl ⟨2, by decide, by simp [configCommand, hparts, hcount, hlen],
        by simp [configCause, hparts, hcount, hlen]⟩
    subst hlen
    cases hd : decimals texts with
    | none =>
      exact .inl ⟨3, by decide, by simp [configCommand, hparts, hcount, hd],
        by simp [configCause, hparts, hcount, decimals_eq_none hd]⟩
    | some widths =>
      have hcommand := configCommand_of_decimals hparts hcount hd
      have hcause := configCause_of_decimals hparts hcount hd maxBits
      cases hfit : widths.all widthFits with
      | false =>
        rw [widthsCause_of_not_fit hmax hfit] at hcause
        refine .inl ⟨_, ?_, ?_, hcause⟩
        · split_ifs <;> decide
        · rw [hcommand, hfit, if_neg Bool.false_ne_true]
          split_ifs <;> rfl
      | true =>
        rw [hfit, if_pos rfl] at hcommand
        have htext := text_of_configParts hparts
        rcases widthCount_cases hcount with ⟨rfl, hn⟩ | ⟨rfl, hn⟩
        · obtain ⟨hText, rfl⟩ := List.length_eq_one_iff.1 hn
          obtain ⟨h, _, rfl, hh, hnil⟩ := decimals_cons_eq_some.1 hd
          cases hnil
          exact .inr (.inl ⟨hText, h, List.append_cancel_right (bs := [':']) (by simpa using htext), hh,
            by simpa [Instr.wellFormed] using hfit, hcommand, hcause⟩)
        · obtain ⟨gText, lText, pText, rfl⟩ := List.length_eq_three.1 hn
          obtain ⟨g, _, rfl, hg, hd⟩ := decimals_cons_eq_some.1 hd
          obtain ⟨l, _, rfl, hl, hd⟩ := decimals_cons_eq_some.1 hd
          obtain ⟨p, _, rfl, hp, hnil⟩ := decimals_cons_eq_some.1 hd
          cases hnil
          exact .inr (.inr ⟨gText, lText, pText, g, l, p,
            List.append_cancel_right (bs := [':']) (by simpa using htext), hg, hl, hp,
            by simpa [Instr.wellFormed, and_assoc] using hfit, hcommand, hcause⟩)

/-! ### The block's answer to the string's command -/

/-- A configuration error of the given cause, with nothing constructed (30_encoding.md R89). -/
def RaisesConfiguration (s t : State) (r : Response) (cause : Nat) : Prop :=
  t.phase = .faulted ∧ t.variant = s.variant ∧ t.err = .configuration ∧ t.errInfo = BitVec.ofNat 4 cause ∧ r.status = 1

/-- A CFG command's own rule constructs its variant, or raises the cause of its widths. -/
theorem configure_outcome (s : State) (widths : List Nat) (v : Variant) :
    ∃ t r, configure widths v s = .next t ∧ t.response = some r ∧
      (widthsCause s.params.maxBits widths = none → t.phase = .ready ∧ r.status = 0 ∧ t.variant = v) ∧
      ∀ cause, widthsCause s.params.maxBits widths = some cause → RaisesConfiguration s t r cause := by
  have herror := widthsError_eq_map_widthsCause s.params.maxBits widths
  unfold configure
  cases hc : widthsCause s.params.maxBits widths with
  | none =>
    rw [hc] at herror
    rw [herror]
    exact ⟨_, _, rfl, rfl, fun _ => ⟨rfl, rfl, rfl⟩, nofun⟩
  | some cause =>
    rw [hc] at herror
    rw [herror]
    refine ⟨_, _, rfl, rfl, nofun, fun c h => ?_⟩
    cases h
    exact ⟨rfl, rfl, rfl, rfl, rfl⟩

/-- Settles O53: `configString_cases` gives the command and its cause, `configure_outcome` the block's answer. -/
theorem configurationStringOutcome : Obligations.ConfigurationStringOutcome := by
  intro s text hp hwf
  have hcases := configString_cases hwf.2 text
  refine ⟨?wf, ?gshare, ?tourn, ?outcome⟩
  case wf =>
    rcases hcases with ⟨cause, hlt, hcommand, -⟩ | ⟨_, _, -, -, hfit, hcommand, -⟩ |
      ⟨_, _, _, _, _, _, -, -, -, -, hfit, hcommand, -⟩ <;> rw [hcommand]
    · exact (infoFits_iff _).2 hlt
    · exact hfit
    · exact hfit
  case gshare =>
    rintro hText h rfl hh hlt
    have hd : decimals [hText] = some [h] := decimals_eq_some.2 (by simp [hh])
    rw [configCommand_of_decimals (configParts_gshare (decimal_notMem_colon hh)) rfl hd]
    simp [hlt, cfgCommand]
  case tourn =>
    rintro gText lText pText g l p rfl hg hl hp hg' hl' hp'
    have hd : decimals [gText, lText, pText] = some [g, l, p] := decimals_eq_some.2 (by simp [hg, hl, hp])
    rw [configCommand_of_decimals (configParts_tourn (decimal_notMem_colon hg) (decimal_notMem_colon hl)
      (decimal_notMem_colon hp)) rfl hd]
    simp [hg', hl', hp', cfgCommand]
  case outcome =>
    rcases hcases with ⟨cause, -, hcommand, hcause⟩ | ⟨hText, h, htext, hh, -, hcommand, hcause⟩ |
      ⟨gText, lText, pText, g, l, p, htext, hg, hl, hpc, -, hcommand, hcause⟩ <;> rw [hcommand, hcause]
    · exact ⟨_, _, framed_report .configuration cause (by simp [hp]), rfl, rfl, rfl, rfl, rfl, rfl⟩
    · obtain ⟨t, r, hexec, hr, hvalid, hinvalid⟩ := configure_outcome s [h] (.gshare (Gshare.construct s.params h))
      refine ⟨t, r, (exec_cfgGshare_of_uninitialized hp h).trans hexec, hr, ?_⟩
      cases hc : widthsCause s.params.maxBits [h] with
      | some cause => exact hinvalid cause hc
      | none =>
        obtain ⟨hready, hstatus, hv⟩ := hvalid hc
        exact ⟨hready, hstatus, .inl ⟨hText, _, htext, hv, hh⟩⟩
    · obtain ⟨t, r, hexec, hr, hvalid, hinvalid⟩ :=
        configure_outcome s [g, l, p] (.tourn (Tournament.construct s.params g l p))
      refine ⟨t, r, (exec_cfgTourn_of_uninitialized hp g l p).trans hexec, hr, ?_⟩
      cases hc : widthsCause s.params.maxBits [g, l, p] with
      | some cause => exact hinvalid cause hc
      | none =>
        obtain ⟨hready, hstatus, hv⟩ := hvalid hc
        exact ⟨hready, hstatus, .inr ⟨gText, lText, pText, _, htext, hv, hg, hl, hpc⟩⟩

/-! ### The run (30_encoding.md R92) -/

/-- A record's address fits its field, and an INFO is 1 or 2. -/
theorem traceCommands_wellFormed (lines : List (List Char)) : ∀ i ∈ traceCommands lines, i.wellFormed = true := by
  induction lines with
  | nil => decide
  | cons line rest ih =>
    rw [traceCommands]
    cases hline : parseLine line with
    | record addr outcome =>
      obtain ⟨-, hlt⟩ := ((traceLineForm line).1 addr outcome).1 hline
      exact List.forall_mem_cons.2 ⟨(addrFits_iff addr).2 hlt, ih⟩
    | malformed info =>
      refine List.forall_mem_singleton.2 ?_
      rcases parseLine_info hline with rfl | rfl <;> decide

/-- With nothing else presented, the opened run's first step performs the configuration command. -/
theorem step_openRun {config : List Char} {s : State} (hin : s.inputs = [])
    (hwf : (configCommand config).wellFormed = true) :
    step (openRun config s) = exec (configCommand config) s := by
  have hpresented : (openRun config s).inputs = [.command (encode (configCommand config))] := by
    simp [openRun, presentAll, hin]
  have hconsumed : (openRun config s).withInputs [] = s := by
    rw [← hin]
    rfl
  rw [step_command hpresented (decodeOfEncode _ hwf), hconsumed]

/-- Settles O56: the string's outcome gives the status the front end goes on by. -/
theorem frontEndRun : Obligations.FrontEndRun := by
  intro s config trace hp hwf hin
  obtain ⟨hfit, -, -, t, r, hexec, hr, houtcome⟩ := configurationStringOutcome s config hp hwf
  refine ⟨traceCommands_wellFormed _, t, (step_openRun hin hfit).trans hexec, hexec, ?_⟩
  have hinputs : t.inputs = [] := (performed_of_exec hexec).inputs_eq.trans hin
  cases hcause : configCause s.params.maxBits config with
  | none =>
    rw [hcause] at houtcome
    obtain ⟨-, hstatus, -⟩ := houtcome
    have hgo : afterConfig trace t = traceCommands (traceLines trace) := by
      simp only [afterConfig, hr]
      exact if_pos hstatus
    rw [continueRun, hgo, presentAll, hinputs]
    rfl
  | some cause =>
    rw [hcause] at houtcome
    obtain ⟨-, -, -, -, hstatus⟩ := houtcome
    have hstop : afterConfig trace t = [] := by
      simp only [afterConfig, hr]
      exact if_neg (by rw [hstatus]; decide)
    rw [continueRun, hstop, presentAll, List.map_nil, List.append_nil]
    rfl

end Sys2Proof.Machine.FrontEnd
end
